-- ==== Sys2Proof/Config.lean ====
section
/-! DEFINITION. What this implementation fixes: the parameters of spec/00_scope.md rule R5. The spec
calls them constants, not parameters (R2), and leaves no result undefined, so there is no free value
here. -/

namespace Sys2Proof.Config

/-- `MEM_SIZE`, R5: the memory has 100 words, at the addresses 0..99. -/
abbrev memSize : Nat := 100

/-- `WORD_MIN`, R5: the least value a word can hold. -/
abbrev wordMin : Int := -999

/-- `WORD_MAX`, R5: the greatest value a word can hold. -/
abbrev wordMax : Int := 999

/-- What an address reads as that nothing has written since reset: 0 (R35, R38, R60: reset and load
zero-fill the memory). -/
abbrev unlistedWord : Int := 0

end Sys2Proof.Config
end

