-- ==== Sys2Proof/Word.lean ====
section
/-! DEFINITION. The word, and its range check (spec/00_scope.md R7). A word is a mathematical integer,
so its type is Lean's `Int`, under no other name: the machine is decimal, and a word has no bits and
no bytes (R8, R51). That a register or a memory cell holds a value that is `InRange` is an invariant
of the machine (R10, R40; `Machine.State.Inv`) and not part of the type: the exact result of the ALU
(R140) and the host's input answer (R210) may lie outside the range. Log entry 1. -/

namespace Sys2Proof

/-- `InRange(v)`, R7: `WORD_MIN ≤ v ≤ WORD_MAX`. -/
abbrev InRange (v : Int) : Prop := Config.wordMin ≤ v ∧ v ≤ Config.wordMax

end Sys2Proof
end

