-- ==== Sys2Proof/Syntax.lean ====
section
/-! DEFINITION. The instruction set: one constructor per row of spec/opcode_table.json (R86). -/

namespace Sys2Proof

/-- The eleven instructions (R86). The argument `a` is the operand, the two low digits of `|IR|`
(R84). HALT and NOP carry theirs though they ignore it; IN and OUT have none (R82). -/
inductive Instr where
  /-- HALT, opcode 0, `0aa`: stops the machine normally (R181). -/
  | halt (a : Nat)
  /-- ADD, opcode 1, `1aa`: adds the word at `a` to AC (R141). -/
  | add (a : Nat)
  /-- SUB, opcode 2, `2aa`: subtracts the word at `a` from AC (R142). -/
  | sub (a : Nat)
  /-- STORE, opcode 3, `3aa`: stores AC at `a` (R161). -/
  | store (a : Nat)
  /-- NOP, opcode 4, `4aa`: does nothing (R182). -/
  | nop (a : Nat)
  /-- LOAD, opcode 5, `5aa`: loads AC from `a` (R162). -/
  | load (a : Nat)
  /-- BR, opcode 6, `6aa`: branches to `a` (R183). -/
  | br (a : Nat)
  /-- BRZ, opcode 7, `7aa`: branches to `a` if AC is zero (R184). -/
  | brz (a : Nat)
  /-- BRP, opcode 8, `8aa`: branches to `a` if AC is not negative (R185). -/
  | brp (a : Nat)
  /-- IN, the word +901: requests one integer from the input port (R211). -/
  | inp
  /-- OUT, the word +902: hands AC to the output port (R213). -/
  | out
deriving DecidableEq, Repr

end Sys2Proof
end

