-- ==== Sys2Proof/WellFormed.lean ====
section
/-! DEFINITION. Which terms of `Instr` are instructions: the operand is two decimal digits, 0..99
(R84). -/

namespace Sys2Proof

/-- The operand an instruction carries; IN and OUT have no operand field (R82). -/
def Instr.operand : Instr → Option Nat
  | .halt a => some a
  | .add a => some a
  | .sub a => some a
  | .store a => some a
  | .nop a => some a
  | .load a => some a
  | .br a => some a
  | .brz a => some a
  | .brp a => some a
  | .inp => none
  | .out => none

/-- R84: the operand, where there is one, lies in 0..99. This holds of the ignored operand of HALT
and NOP too, since it is the same two digits. -/
def Instr.wellFormed (i : Instr) : Bool :=
  match i.operand with
  | some a => decide (a < Config.memSize)
  | none => true

end Sys2Proof
end

