-- ==== Sys2Proof/Decode.lean ====
section
/-! DEFINITION. Decoding (spec/30_encoding.md R83), total on every integer, and after it the encoder
(R88). A word's fields are the decimal digits of its magnitude (R8). -/

namespace Sys2Proof

/-- What decode answers: an instruction, or the unknown opcode with its two low digits (R83's
`UNKNOWN, a`). -/
inductive Decoded where
  | known (i : Instr)
  | unknown (a : Nat)
deriving DecidableEq, Repr

/-- `digit2(w)`, R8: the hundreds digit of `|w|`. -/
def digit2 (w : Int) : Nat := w.natAbs / 100 % 10

/-- `digits10(w)`, R8: the two low digits of `|w|`. -/
def digits10 (w : Int) : Nat := w.natAbs % 100

/-- The digit opcodes of format D (R81, R83). 9 is no opcode of this format. -/
def decodeDigit (d a : Nat) : Decoded :=
  match d with
  | 0 => .known (.halt a)
  | 1 => .known (.add a)
  | 2 => .known (.sub a)
  | 3 => .known (.store a)
  | 4 => .known (.nop a)
  | 5 => .known (.load a)
  | 6 => .known (.br a)
  | 7 => .known (.brz a)
  | 8 => .known (.brp a)
  | _ => .unknown a

/-- `Decode(IR)`, R83. The test for the special words +901 and +902 comes first, on the signed
value; every other word is read by its magnitude. The one decoder, in every state (R89). -/
def decode (w : Int) : Decoded :=
  if w = 901 then .known .inp
  else if w = 902 then .known .out
  else decodeDigit (digit2 w) (digits10 w)

/-- The word of format D with the hundreds digit `d` and the operand `a`: `op·100 + (a mod 100)`,
R88. -/
def encodeDigit (d a : Nat) : Int := ((d * 100 + a % 100 : Nat) : Int)

/-- The canonical encoding, R88. -/
def encode : Instr → Int
  | .halt a => encodeDigit 0 a
  | .add a => encodeDigit 1 a
  | .sub a => encodeDigit 2 a
  | .store a => encodeDigit 3 a
  | .nop a => encodeDigit 4 a
  | .load a => encodeDigit 5 a
  | .br a => encodeDigit 6 a
  | .brz a => encodeDigit 7 a
  | .brp a => encodeDigit 8 a
  | .inp => 901
  | .out => 902

/-- The word a row number of the opcode table stands for. The machine has no bits (R51), so the
number IS the word's value, whatever `nbits`; a number above 999 is no word. DESIGN CHOICE, log
entry 3. -/
def tableWord (_nbits w : Nat) : Option Int :=
  if w ≤ 999 then some (w : Int) else none

/-- The instruction the decoder reads from the word with the value `w`; none where `w` is no word or
decode answers the unknown opcode. -/
def decodeTableWord (nbits w : Nat) : Option Instr :=
  match tableWord nbits w with
  | none => none
  | some v =>
    match decode v with
    | .known i => some i
    | .unknown _ => none

end Sys2Proof
end

