-- ==== Sys2Proof/Machine/State.lean ====
section
/-! DEFINITION. The machine's state as plain data (spec/10_state.md R20), its reset value (R38), and
the reasons a step can stop. -/

namespace Sys2Proof.Machine

/-- `RS`, R30. Log entry 8. -/
inductive RunState where
  | ready
  | running
  | halted
  | errored
deriving DecidableEq, Repr

/-- `CAUSE`, R31 and R231. Its numbers are `Cause.code` (Machine/Ops.lean). Log entry 8. -/
inductive Cause where
  | none
  | overflow
  | unknownOpcode
  | inputCancelled
  | bounds
  | outOfProgram
deriving DecidableEq, Repr

/-- The registers whose writes the trace port shows (R121, R122). -/
inductive RegName where
  | pc
  | ac
  | ir
  | mar
  | mbr
deriving DecidableEq, Repr

/-- The events of the trace port, R121. -/
inductive Event where
  /-- A write of a register, with the new value (R122). -/
  | reg (r : RegName) (v : Int)
  /-- A memory read (R52). -/
  | memRead (a : Nat)
  /-- A memory write (R53). -/
  | memWritten (a : Nat) (v : Int)
  /-- The flags after `SetFlags` (R140). -/
  | flags (z n : Bool)
  /-- The cycle count at the end of a cycle (R117). -/
  | cycle (c : Nat)
  /-- A change of `RS` (R123). -/
  | runState (rs : RunState)
  /-- The address of the instruction just decoded (R114). -/
  | executed (ia : Nat)
  /-- The error report (R238); `value` is the column of that name in R231. -/
  | error (cause : Cause) (ia : Nat) (ir : Int) (value : Option Int)
  /-- The off-end warning (R116). -/
  | warning (cause : Cause) (pc : Nat)
  /-- A word handed to the output port (R213). -/
  | output (v : Int)
deriving DecidableEq, Repr

/-- What completes an input request, R210: any integer, or a cancellation. -/
inductive InputAnswer where
  | answer (v : Int)
  | cancel
deriving DecidableEq, Repr

/-- The memory `M[0..99]`, R35 and R50: pairs of an address and a whole word, in the canonical form
`Memory.wf` (Machine/Ops.lean). The spec forbids a byte layout (R51), so a cell holds a word and not
a byte. Log entry 2. -/
abbrev Memory := List (Nat × Int)

/-- The state of the machine: R20's tuple, then three fields of the model's own. -/
structure State where
  /-- `PC`, R22. -/
  pc : Nat
  /-- `AC`, R21. -/
  ac : Int
  /-- `IR`, R26. -/
  ir : Int
  /-- `MAR`, R27. -/
  mar : Nat
  /-- `MBR`, R28. -/
  mbr : Int
  /-- `Z`, R23. -/
  z : Bool
  /-- `N`, R24. -/
  n : Bool
  /-- `RS`, R30. -/
  rs : RunState
  /-- `CAUSE`, R31. -/
  cause : Cause
  /-- `CYC`, R32. -/
  cyc : Nat
  /-- `INREQ`, R33. -/
  inReq : Bool
  /-- `PROG_END`, R34. -/
  progEnd : Nat
  /-- `M[0..99]`, R35. -/
  mem : Memory
  /-- `OUT_LOG`, R36: the words output since the launch, oldest first. An observation, which no step
  reads. Log entry 13. -/
  outLog : List Int
  /-- The events of the trace port, R121, oldest first. An observation, which no step reads (R124).
  Log entry 4. -/
  trace : List Event
  /-- The host's answers to the input requests still to come, in order (spec/92_eei_decisions.md,
  'input answers'). Log entry 5. -/
  answers : List InputAnswer
deriving DecidableEq, Repr

/-- The machine right after reset, R38 and R270, which power-on gives too (R271). -/
def State.reset : State where
  pc := 0
  ac := 0
  ir := 0
  mar := 0
  mbr := 0
  z := false
  n := false
  rs := .ready
  cause := .none
  cyc := 0
  inReq := false
  progEnd := 0
  mem := []
  outLog := []
  trace := [.runState .ready]
  answers := []

/-- Why there is no next state. The machine's own faults (R231) are not here: each is a next state,
in ERRORED (R237). Log entry 10. -/
inductive Fault where
  /-- `step` and the host's cycle in HALTED: no cycle is enabled (R110, R119, D12). Safe: the spec
  gives no successor. -/
  | halted
  /-- `step` and the host's cycle in ERRORED: no cycle is enabled (R110, R119, R282). Safe: the spec
  gives no successor. -/
  | errored
  /-- `step` while an IN waits and the host has no answer queued, and the host's cycle while an IN
  waits (R110, R210, R276: the machine is stuck until the host answers). Safe: the spec gives no
  successor. -/
  | inputAwaited
  /-- The meanings that use their operand as an address, on a term that is no instruction because
  its operand lies outside 0..99 (R54: a contract violation). Decode never gives such a term (R84),
  so no step raises it. Safe. Log entry 7. -/
  | addressOutsideMemory (a : Nat)
deriving DecidableEq, Repr

/-- What is refused. No instruction is: all but the first are the host's commands that the spec does
not accept. -/
inductive Refusal where
  /-- An instruction without a meaning yet. No arm of `exec` answers it. Safe. -/
  | notModelled (mnemonic : String)
  /-- The load operation, in a state reset did not leave (R272, D16). Safe: the spec refuses it. -/
  | loadNotAfterReset
  /-- The load operation, on an image with an address outside 0..99 (R272). Safe: the spec refuses
  it. -/
  | loadAddressOutsideMemory
  /-- The load operation, on an image with a word outside −999..999 (R272, D2). Safe: the spec
  refuses it. -/
  | loadWordOutOfRange
  /-- The host's answer or cancel with no request pending (R212, R274). Safe: the spec does not
  enable it. -/
  | noInputRequest
  /-- The host's `run` where no cycle is enabled (R274). Safe: the spec does not enable it. -/
  | runNotEnabled
deriving DecidableEq, Repr

/-- The outcome of a step, an instruction or a host command. -/
abbrev Outcome := Host.Outcome State Fault Refusal

end Sys2Proof.Machine
end

