-- ==== Sys2Proof/Machine/Ops.lean ====
section
/-! DEFINITION. The named operations over memory, registers, run state and trace port: the
primitives of spec/00_scope.md R9, the end of a cycle (R116, R117), and the entry into ERRORED
(R237). -/

namespace Sys2Proof.Machine

/-- The code `CAUSE` holds, R231. -/
def Cause.code : Cause → Nat
  | .none => 0
  | .overflow => 1
  | .unknownOpcode => 2
  | .inputCancelled => 3
  | .bounds => 4
  | .outOfProgram => 5

/-! ### Memory -/

/-- The canonical form: addresses strictly rising, each an address of the machine (R50), and no
entry equal to what an unlisted address reads as. -/
abbrev Memory.wf (m : Memory) : Prop :=
  m.Pairwise (fun c d => c.1 < d.1) ∧ ∀ c ∈ m, c.1 < Config.memSize ∧ c.2 ≠ Config.unlistedWord

/-- `M[a]`, R52. -/
def Memory.read : Memory → Nat → Int
  | [], _ => Config.unlistedWord
  | (k, w) :: rest, a => if k = a then w else Memory.read rest a

/-- `M[a] <- v` at the head of a canonical list whose addresses all lie above `a`. -/
def Memory.insertHead (a : Nat) (v : Int) (m : Memory) : Memory :=
  if v = Config.unlistedWord then m else (a, v) :: m

/-- `M[a] <- v`, R53, keeping the canonical form. -/
def Memory.write : Memory → Nat → Int → Memory
  | [], a, v => Memory.insertHead a v []
  | (k, w) :: rest, a, v =>
    if k < a then (k, w) :: Memory.write rest a v
    else if k = a then Memory.insertHead a v rest
    else Memory.insertHead a v ((k, w) :: rest)

/-- The writes of a load image, in order, R272; the last write of an address wins (R65). -/
def Memory.writeAll (m : Memory) : List (Nat × Int) → Memory
  | [] => m
  | (a, v) :: rest => Memory.writeAll (m.write a v) rest

/-! ### The trace port, the registers and the run state -/

/-- `Emit(e)`, R9 and R121. -/
def emit (e : Event) (s : State) : State := { s with trace := s.trace ++ [e] }

/-- `PC <- v`, R9 and R122. -/
def writePc (v : Nat) (s : State) : State := emit (.reg .pc v) { s with pc := v }

/-- `AC <- v`, R9 and R122. -/
def writeAc (v : Int) (s : State) : State := emit (.reg .ac v) { s with ac := v }

/-- `IR <- v`, R9 and R122. -/
def writeIr (v : Int) (s : State) : State := emit (.reg .ir v) { s with ir := v }

/-- `MAR <- v`, R9 and R122. -/
def writeMar (v : Nat) (s : State) : State := emit (.reg .mar v) { s with mar := v }

/-- `MBR <- v`, R9 and R122. -/
def writeMbr (v : Int) (s : State) : State := emit (.reg .mbr v) { s with mbr := v }

/-- `RS <- r`, R30, with its event (R123). -/
def setRunState (r : RunState) (s : State) : State := emit (.runState r) { s with rs := r }

/-- `MBR <- MemRead(MAR, 1)`, R52: the `memRead` event comes before MBR is written (D17). -/
def memReadToMbr (s : State) : State :=
  writeMbr (s.mem.read s.mar) (emit (.memRead s.mar) s)

/-- `MemWrite(MAR, 1, MBR)`, R53. -/
def memWriteFromMbr (s : State) : State :=
  emit (.memWritten s.mar s.mbr) { s with mem := s.mem.write s.mar s.mbr }

/-- `OutputPort.put(v)` with its event, R213 and R214. -/
def outputPut (v : Int) (s : State) : State :=
  emit (.output v) { s with outLog := s.outLog ++ [v] }

/-- `IA` as an execute rule or the completion of an IN sees it: each runs with `PC = IA + 1` (R113,
R211). DEDUCED, log entry 6. -/
def instrAddr (s : State) : Nat := s.pc - 1

/-! ### The end of a cycle and the entry into ERRORED -/

/-- The off-end check, R116. -/
def offEndCheck (s : State) : State :=
  if s.rs = .running ∧ s.progEnd ≤ s.pc then
    emit (.runState .halted)
      (emit (.warning .outOfProgram s.pc) { s with rs := .halted, cause := .outOfProgram })
  else s

/-- `CYC <- CYC + 1; Emit(cycle(CYC))`, R117. -/
def countCycle (s : State) : State :=
  emit (.cycle (s.cyc + 1)) { s with cyc := s.cyc + 1 }

/-- `EndCycle()`, R117, but for the value it returns (`stepReturns`). -/
def endCycle (s : State) : State := countCycle (offEndCheck s)

/-- The value `EndCycle`, and with it `step()`, returns, R117: whether the machine still runs. -/
def stepReturns (s : State) : Bool := s.rs == .running

/-- `raise Fault(c, v)`, R237, for the instruction at `ia`: the machine's one exception entry. It
saves nothing and goes nowhere (R230). The error report comes before the run-state event. It ends the
cycle itself. There is no return from it but reset (R240; `hostReset`, Machine/HostControl.lean). -/
def raiseFault (c : Cause) (ia : Nat) (v : Option Int) (s : State) : State :=
  endCycle
    (emit (.runState .errored)
      (emit (.error c ia s.ir v) { s with rs := .errored, cause := c }))

end Sys2Proof.Machine
end

