-- ==== Sys2Proof/Machine/Cycle.lean ====
section
/-! DEFINITION. The parts of a cycle around the execute phase (spec/40_cycle.md). -/

namespace Sys2Proof.Machine

/-- When a cycle is enabled, R110. -/
abbrev cycleEnabled (s : State) : Prop :=
  (s.rs = .ready ∨ s.rs = .running) ∧ s.inReq = false

/-- The start of a cycle, R111: READY becomes RUNNING. -/
def startCycle (s : State) : State :=
  if s.rs = .ready then setRunState .running s else s

/-- `Fetch()`, R113. -/
def fetch (s : State) : State :=
  let s := writeMar s.pc s
  let s := memReadToMbr s
  let s := writeIr s.mbr s
  writePc (s.pc + 1) s

/-- The state the execute phase starts in, from the state `startCycle` leaves: fetched, with the
`executed` event of decode (R113, R114). -/
def fetchDecode (s : State) : State := emit (.executed s.pc) (fetch s)

/-- The unknown opcode, R115: fetch's writes stand. -/
def unknownOpcode (s : State) : State :=
  raiseFault .unknownOpcode (instrAddr s) (some s.ir) s

/-- The fetch from an address outside the memory, R112: no register is written, and the address
reported is PC. -/
def boundsFault (s : State) : State := raiseFault .bounds s.pc (some (s.pc : Int)) s

/-- What follows the execute phase, R114: `EndCycle()`, which is not reached after `raise` (it ended
the cycle itself) or IN (its cycle is suspended). -/
def afterExecute (s : State) : State :=
  if s.rs = .errored ∨ s.inReq = true then s else endCycle s

end Sys2Proof.Machine
end

