-- ==== Sys2Proof/Machine/Flags.lean ====
section
/-! DEFINITION. The ALU, the flag unit and the checked write of AC (spec/41_arithmetic.md R140). -/

namespace Sys2Proof.Machine

/-- The ALU's exact sum, R140. -/
def aluAdd (x y : Int) : Int := x + y

/-- The ALU's exact difference, R140. -/
def aluSub (x y : Int) : Int := x - y

/-- The value `SetFlags` gives Z, R23. -/
def zeroFlag (ac : Int) : Bool := decide (ac = 0)

/-- The value `SetFlags` gives N, R24. -/
def negativeFlag (ac : Int) : Bool := decide (ac < 0)

/-- `SetFlags()`, R140. -/
def setFlags (s : State) : State :=
  emit (.flags (zeroFlag s.ac) (negativeFlag s.ac))
    { s with z := zeroFlag s.ac, n := negativeFlag s.ac }

/-- `AC <- v; SetFlags()`: the two always go together (R140). -/
def loadAc (v : Int) (s : State) : State := setFlags (writeAc v s)

/-- The checked write of an ALU result, R141 and R142: a result outside the word range raises
OVERFLOW before AC is written (R232, D5). -/
def commitAc (r : Int) (s : State) : State :=
  if InRange r then loadAc r s else raiseFault .overflow (instrAddr s) (some r) s

end Sys2Proof.Machine
end

