-- ==== Sys2Proof/Machine/Operands.lean ====
section
/-! DEFINITION. The one operand form: the direct absolute address (spec/42_load_store.md R160). The
effective address IS the operand. -/

namespace Sys2Proof.Machine

/-- An instruction that uses `a` as an address goes to `t`; a term whose `a` is no address of the
machine is no instruction (R54, R84). DESIGN CHOICE, log entry 7. -/
def checkedAddress (a : Nat) (t : State) : Outcome :=
  if a < Config.memSize then .next t else .fault (.addressOutsideMemory a)

/-- `MAR <- a; MBR <- MemRead(MAR, 1)`: the operand fetch of ADD, SUB and LOAD (R141, R142, R162). -/
def readOperand (a : Nat) (s : State) : State := memReadToMbr (writeMar a s)

/-- `MAR <- a; MBR <- AC; MemWrite(MAR, 1, MBR)`: the operand store of STORE (R161). -/
def storeOperand (a : Nat) (s : State) : State := memWriteFromMbr (writeMbr s.ac (writeMar a s))

end Sys2Proof.Machine
end

