-- ==== Sys2Proof/Machine/Arithmetic.lean ====
section
/-! DEFINITION. ADD and SUB (spec/41_arithmetic.md). -/

namespace Sys2Proof.Machine

/-- `ExecADD(a)`, R141. -/
def execAdd (a : Nat) (s : State) : Outcome :=
  let t := readOperand a s
  checkedAddress a (commitAc (aluAdd t.ac t.mbr) t)

/-- `ExecSUB(a)`, R142: `AC − MBR`. -/
def execSub (a : Nat) (s : State) : Outcome :=
  let t := readOperand a s
  checkedAddress a (commitAc (aluSub t.ac t.mbr) t)

end Sys2Proof.Machine
end

