-- ==== Sys2Proof/Machine/Control.lean ====
section
/-! DEFINITION. HALT, NOP, BR, BRZ and BRP (spec/43_control.md). The branches test AC, never the
flags (R180). -/

namespace Sys2Proof.Machine

/-- `ExecHALT(a)`, R181; the operand is ignored. -/
def execHalt (_a : Nat) (s : State) : Outcome := .next (setRunState .halted s)

/-- `ExecNOP(a)`, R182; the operand is ignored. -/
def execNop (_a : Nat) (s : State) : Outcome := .next s

/-- `ExecBR(a)`, R183. -/
def execBr (a : Nat) (s : State) : Outcome := checkedAddress a (writePc a s)

/-- `ExecBRZ(a)`, R184. -/
def execBrz (a : Nat) (s : State) : Outcome :=
  checkedAddress a (if s.ac = 0 then writePc a s else s)

/-- `ExecBRP(a)`, R185: zero counts as non-negative. -/
def execBrp (a : Nat) (s : State) : Outcome :=
  checkedAddress a (if 0 ≤ s.ac then writePc a s else s)

end Sys2Proof.Machine
end

