-- ==== Sys2Proof/Machine/Io.lean ====
section
/-! DEFINITION. IN and OUT, and the completion of a suspended IN (spec/44_io.md). -/

namespace Sys2Proof.Machine

/-- `ExecIN()`, R211: raises the request; the cycle is suspended and has not ended. -/
def execIn (s : State) : Outcome := .next { s with inReq := true }

/-- `ExecOUT()`, R213. -/
def execOut (s : State) : Outcome := .next (outputPut s.ac s)

/-- `InputComplete(x)`, R212: the second half of an IN cycle. -/
def completeInput (x : InputAnswer) (s : State) : State :=
  let t := { s with inReq := false }
  match x with
  | .cancel => raiseFault .inputCancelled (instrAddr t) none t
  | .answer v =>
    if InRange v then endCycle (loadAc v t)
    else raiseFault .overflow (instrAddr t) (some v) t

/-- A suspended IN meets the host's next answer. With none the machine waits: nothing is enabled but
an answer or reset (R110, R210). -/
def resumeInput (s : State) : Outcome :=
  match s.answers with
  | [] => .fault .inputAwaited
  | x :: rest => .next (completeInput x { s with answers := rest })

end Sys2Proof.Machine
end

