-- ==== Sys2Proof/Machine/LoadStore.lean ====
section
/-! DEFINITION. STORE and LOAD (spec/42_load_store.md). -/

namespace Sys2Proof.Machine

/-- `ExecSTORE(a)`, R161. -/
def execStore (a : Nat) (s : State) : Outcome := checkedAddress a (storeOperand a s)

/-- `ExecLOAD(a)`, R162: the whole word, with no range check, since every cell holds a word in
range (R40). -/
def execLoad (a : Nat) (s : State) : Outcome :=
  let t := readOperand a s
  checkedAddress a (loadAc t.mbr t)

end Sys2Proof.Machine
end

