-- ==== Sys2Proof/Machine/Dispatch.lean ====
section
/-! DEFINITION. The dispatch of the execute phase, R114: a closed match with one arm per
instruction. -/

namespace Sys2Proof.Machine

def exec (i : Instr) (s : State) : Host.Outcome State Fault Refusal :=
  match i with
  | .halt a => Sys2Proof.Machine.execHalt a s
  | .add a => Sys2Proof.Machine.execAdd a s
  | .sub a => Sys2Proof.Machine.execSub a s
  | .store a => Sys2Proof.Machine.execStore a s
  | .nop a => Sys2Proof.Machine.execNop a s
  | .load a => Sys2Proof.Machine.execLoad a s
  | .br a => Sys2Proof.Machine.execBr a s
  | .brz a => Sys2Proof.Machine.execBrz a s
  | .brp a => Sys2Proof.Machine.execBrp a s
  | .inp => Sys2Proof.Machine.execIn s
  | .out => Sys2Proof.Machine.execOut s

end Sys2Proof.Machine
end

