-- ==== Sys2Proof/Machine/Step.lean ====
section
/-! DEFINITION. One step: a cycle (spec/40_cycle.md R118), or the completion of a suspended IN
(spec/44_io.md R212), so that the cycle of an IN is two steps. Log entry 9. -/

namespace Sys2Proof.Machine

/-- Decode of the word in IR, the execute phase, and the end of the cycle, R114. -/
def execute (s : State) : Outcome :=
  match decode s.ir with
  | .unknown _ => .next (unknownOpcode s)
  | .known i =>
    match exec i s with
    | .next t => .next (afterExecute t)
    | .fault f => .fault f
    | .refused r => .refused r

/-- `Cycle()`, R118, where a cycle is enabled. -/
def cycle (s : State) : Outcome :=
  if s.pc < Config.memSize then execute (fetchDecode (startCycle s))
  else .next (boundsFault (startCycle s))

/-- A cycle if one is enabled, R110. HALTED and ERRORED have no successor (R119), and while an IN
waits no cycle starts. -/
def cycleStep (s : State) : Outcome :=
  if s.inReq then .fault .inputAwaited
  else
    match s.rs with
    | .halted => .fault .halted
    | .errored => .fault .errored
    | .ready => cycle s
    | .running => cycle s

/-- What the machine does next: a suspended IN meets its answer, and otherwise a cycle runs. -/
def step (s : State) : Host.Outcome State Fault Refusal :=
  if s.inReq then resumeInput s else cycleStep s

/-- `s` with the word of the value `w` where the next cycle fetches, and with what that cycle needs
to run (R110, R112): no request pending, a state that is not terminal, and a PC inside the memory.
In a state where a cycle is enabled and PC < 100 only the memory changes. A `w` that is no word
changes nothing. DESIGN CHOICE, log entry 3. -/
def State.withFetchWord (s : State) (nbits w : Nat) : State :=
  match tableWord nbits w with
  | none => s
  | some v =>
    let pc := if s.pc < Config.memSize then s.pc else 0
    { s with
      pc := pc
      rs := if s.rs = .ready then .ready else .running
      inReq := false
      mem := s.mem.write pc v }

end Sys2Proof.Machine
end

