-- ==== Sys2Proof/Machine/HostControl.lean ====
section
/-! DEFINITION. The host's commands: reset, load, cycles, input answers and pacing
(spec/70_reset_and_hazards.md). -/

namespace Sys2Proof.Machine

/-- `Reset()`, R270, accepted in every state. It emits `runState(READY)` only. OUT_LOG starts empty
again, and the answers of the abandoned run are dropped (log entry 5). -/
def hostReset (s : State) : State :=
  setRunState .ready
    { s with
      inReq := false
      pc := 0
      ac := 0
      ir := 0
      mar := 0
      mbr := 0
      z := false
      n := false
      mem := []
      cyc := 0
      cause := .none
      progEnd := 0
      outLog := []
      answers := [] }

/-- The state reset leaves, as the load operation tests it, R272. Log entry 12. -/
abbrev loadable (s : State) : Prop :=
  s.rs = .ready ∧ s.cyc = 0 ∧ s.inReq = false ∧ s.mem = []

/-- `Load(image, pe)`, R272; `pe` is the open parameter PROG_END (D4). Log entry 12. -/
def load (image : List (Nat × Int)) (pe : Nat) (s : State) : Outcome :=
  if ¬ loadable s then .refused .loadNotAfterReset
  else if ¬ ∀ c ∈ image, c.1 < Config.memSize then .refused .loadAddressOutsideMemory
  else if ¬ ∀ c ∈ image, InRange c.2 then .refused .loadWordOutOfRange
  else .next { s with mem := Memory.writeAll [] image, progEnd := pe }

/-- The host's answers to come, appended to those already queued (log entry 5). -/
def supplyAnswers (xs : List InputAnswer) (s : State) : State :=
  { s with answers := s.answers ++ xs }

/-- `run()` that is paused before its step number `k + 1`, R274: steps until the machine stops or
waits, or until the pause. -/
def runSteps : Nat → State → State
  | 0, s => s
  | k + 1, s =>
    match step s with
    | .next t => runSteps k t
    | .fault _ => s
    | .refused _ => s

/-- What the host can do, R274. Log entry 11. -/
inductive HostAction where
  /-- `step()`. -/
  | cycle
  /-- `singleStep()`. -/
  | singleStep
  /-- `run()`, paused after the given number of steps at the latest. -/
  | run (steps : Nat)
  /-- `pause()`. -/
  | pause
  /-- `setRate(cyclesPerSecond)`. -/
  | setRate (cyclesPerSecond : Nat)
  /-- `answer(v)` or `cancel`. -/
  | input (x : InputAnswer)
  /-- `reset()`. -/
  | reset
  /-- The load operation. -/
  | load (image : List (Nat × Int)) (progEnd : Nat)
deriving DecidableEq, Repr

/-- The effect of each command where it is enabled, R274. `pause` and `setRate` change no machine
state (D23, D24). -/
def hostAct (act : HostAction) (s : State) : Outcome :=
  match act with
  | .cycle => cycleStep s
  | .singleStep => cycleStep s
  | .run k => if cycleEnabled s then .next (runSteps k s) else .refused .runNotEnabled
  | .pause => .next s
  | .setRate _ => .next s
  | .input x => if s.inReq then .next (completeInput x s) else .refused .noInputRequest
  | .reset => .next (hostReset s)
  | .load image pe => load image pe s

end Sys2Proof.Machine
end

