-- ==== Sys2Proof/Safety.lean ====
section
/-! DEFINITION. What a claim about a run is stated in: the invariants of the machine, how a run ends
(spec/70_reset_and_hazards.md R276), and the states a host can bring it to. -/

namespace Sys2Proof.Machine

/-- R40, but for its clause about CYC (`State.cycCounted`): what holds in every state reachable from
reset. -/
structure State.Inv (s : State) : Prop where
  pcRange : s.pc ≤ Config.memSize
  marRange : s.mar < Config.memSize
  acRange : InRange s.ac
  mbrRange : InRange s.mbr
  irRange : InRange s.ir
  memForm : s.mem.wf
  memRange : ∀ c ∈ s.mem, InRange c.2
  waiting : s.inReq = true → s.rs = .running ∧ s.ir = 901

/-- The cycles completed since the last reset, read from the trace port: the `cycle` events after the
last `runState(READY)` (R117, R123, R270). -/
def completedCycles (trace : List Event) : Nat :=
  trace.foldl
    (fun k e =>
      match e with
      | .cycle _ => k + 1
      | .runState .ready => 0
      | _ => k) 0

/-- R40, R32: CYC is the number of cycles completed since reset. -/
abbrev State.cycCounted (s : State) : Prop := s.cyc = completedCycles s.trace

/-- Which causes a run state goes with, R231 and R250: none while the machine runs; none (HALT) or
off-end in HALTED; one of the four fatal causes in ERRORED. -/
def causeAgrees : RunState → Cause → Bool
  | .ready, c => c == .none
  | .running, c => c == .none
  | .halted, c => c == .none || c == .outOfProgram
  | .errored, c => c == .overflow || c == .unknownOpcode || c == .inputCancelled || c == .bounds

/-- Whether AC has been written since the last reset, read from the trace port: whether it shows a
`reg(AC, v)` after the last `runState(READY)` (R122, R123, R270). -/
def acWritten (trace : List Event) : Bool :=
  trace.foldl
    (fun b e =>
      match e with
      | .reg .ac _ => true
      | .runState .ready => false
      | _ => b) false

/-- R25: the flags follow AC once it has been written since the last reset, and until then AC and the
flags have their reset values. -/
abbrev State.flagsFollowAc (s : State) : Prop :=
  (acWritten s.trace = true → s.z = decide (s.ac = 0) ∧ s.n = decide (s.ac < 0)) ∧
  (acWritten s.trace = false → s.ac = 0 ∧ s.z = false ∧ s.n = false)

/-- R276: the run has ended. -/
abbrev State.ended (s : State) : Prop := s.rs = .halted ∨ s.rs = .errored

/-- R276: a normal end, by HALT or off the end of the program. -/
abbrev State.normalEnd (s : State) : Prop := s.rs = .halted

/-- R276: an abnormal end, a fault of R231. A claim about a normal run takes its absence as a
premise. -/
abbrev State.abnormalEnd (s : State) : Prop := s.rs = .errored

/-- R210, R249: the only wait. The machine waits and the host has no answer queued. -/
abbrev State.waits (s : State) : Prop := s.inReq = true ∧ s.answers = []

/-- The states a host can bring the machine to from reset, R274. -/
inductive Reachable : State → Prop where
  | reset : Reachable State.reset
  | step {s t : State} : Reachable s → step s = .next t → Reachable t
  | act {s t : State} (a : HostAction) : Reachable s → hostAct a s = .next t → Reachable t
  | supply {s : State} (xs : List InputAnswer) : Reachable s → Reachable (supplyAnswers xs s)

/-- BR, BRZ and BRP (R180). -/
def isBranch : Instr → Bool
  | .br _ => true
  | .brz _ => true
  | .brp _ => true
  | .halt _ => false
  | .add _ => false
  | .sub _ => false
  | .store _ => false
  | .nop _ => false
  | .load _ => false
  | .inp => false
  | .out => false

/-- HALT (R181), after which the off-end check is skipped. -/
def isHalt : Instr → Bool
  | .halt _ => true
  | .add _ => false
  | .sub _ => false
  | .store _ => false
  | .nop _ => false
  | .load _ => false
  | .br _ => false
  | .brz _ => false
  | .brp _ => false
  | .inp => false
  | .out => false

/-- The word the next cycle fetches is a branch. -/
def fetchesBranch (s : State) : Bool :=
  match decode (s.mem.read s.pc) with
  | .known i => isBranch i
  | .unknown _ => false

/-- The next `k` steps from `s` execute no branch, as R280 supposes of a program. -/
def branchFree : Nat → State → Prop
  | 0, _ => True
  | k + 1, s =>
    (cycleEnabled s → fetchesBranch s = false) ∧ ∀ t, step s = .next t → branchFree k t

/-- The outcome without what the trace port shows. -/
def forgetTrace : Outcome → Outcome
  | .next t => .next { t with trace := [] }
  | .fault f => .fault f
  | .refused r => .refused r

/-- The outcome without the flags and without what the trace port shows. -/
def forgetFlags : Outcome → Outcome
  | .next t => .next { t with z := false, n := false, trace := [] }
  | .fault f => .fault f
  | .refused r => .refused r

/-! ### The events of a cycle, R125 -/

/-- The first event of the first cycle (R111). -/
def startEvents (s : State) : List Event :=
  if s.rs = .ready then [.runState .running] else []

/-- The events of fetch and decode (R113, R114). -/
def fetchEvents (s : State) : List Event :=
  [.reg .mar s.pc, .memRead s.pc, .reg .mbr (s.mem.read s.pc), .reg .ir (s.mem.read s.pc),
    .reg .pc ((s.pc : Int) + 1), .executed s.pc]

/-- The events of the memory operand of ADD, SUB and LOAD. -/
def operandEvents (a : Nat) (s : State) : List Event :=
  [.reg .mar a, .memRead a, .reg .mbr (s.mem.read a)]

/-- The events of a write of AC. -/
def acEvents (v : Int) : List Event :=
  [.reg .ac v, .flags (decide (v = 0)) (decide (v < 0))]

/-- The events of the execute phase, where it raises no fault: the trace line of each instruction's
rule (R141, R142, R161, R162, R181 to R185, R211, R213). -/
def executeEvents (s : State) : Instr → List Event
  | .halt _ => [.runState .halted]
  | .add a => operandEvents a s ++ acEvents (s.ac + s.mem.read a)
  | .sub a => operandEvents a s ++ acEvents (s.ac - s.mem.read a)
  | .store a => [.reg .mar a, .reg .mbr s.ac, .memWritten a s.ac]
  | .nop _ => []
  | .load a => operandEvents a s ++ acEvents (s.mem.read a)
  | .br a => [.reg .pc a]
  | .brz a => if s.ac = 0 then [.reg .pc a] else []
  | .brp a => if 0 ≤ s.ac then [.reg .pc a] else []
  | .inp => []
  | .out => [.output s.ac]

/-- The value a load image gives an address: the last one written to it (R65), and 0 where there is
none (R60). -/
def imageWord (image : List (Nat × Int)) (a : Nat) : Int :=
  match image.reverse.find? (fun c => c.1 == a) with
  | some c => c.2
  | none => 0

end Sys2Proof.Machine
end

