-- ==== Sys2Proof/Certificates/Slice0/Obligations.lean ====
section
/-! DEFINITION. The statements for the provers, in the order of spec/: encoding, the instructions, the
cycle, the faults, reset and host control, and the rules of the whole machine. A docstring names the
decision (D) of spec/92_eei_decisions.md or the log entry a statement rests on, where it rests on
one. -/

open Sys2Proof
open Sys2Proof.Machine

/-! ### Encoding -/

/-- One word of each instruction, and words of no instruction (spec/95_test_vectors.md, Decode). -/
def Obligations.SampleWordsDecode : Prop :=
  decode 99 = .known (.halt 99) ∧ decode 199 = .known (.add 99) ∧ decode 220 = .known (.sub 20) ∧
  decode 341 = .known (.store 41) ∧ decode 450 = .known (.nop 50) ∧
  decode (-510) = .known (.load 10) ∧ decode 601 = .known (.br 1) ∧ decode 705 = .known (.brz 5) ∧
  decode 899 = .known (.brp 99) ∧ decode 901 = .known .inp ∧ decode 902 = .known .out ∧
  decode (-901) = .unknown 1 ∧ decode 900 = .unknown 0 ∧ decode (-999) = .unknown 99

/-- R88: the canonical encoding of each instruction, and that decode reads every instruction back
from it, with every operand. -/
def Obligations.EncodeIsCanonicalAndDecodesBack : Prop :=
  (∀ a : Nat,
    encode (.halt a) = (a % 100 : Nat) ∧ encode (.add a) = (100 + a % 100 : Nat) ∧
    encode (.sub a) = (200 + a % 100 : Nat) ∧ encode (.store a) = (300 + a % 100 : Nat) ∧
    encode (.nop a) = (400 + a % 100 : Nat) ∧ encode (.load a) = (500 + a % 100 : Nat) ∧
    encode (.br a) = (600 + a % 100 : Nat) ∧ encode (.brz a) = (700 + a % 100 : Nat) ∧
    encode (.brp a) = (800 + a % 100 : Nat)) ∧
  encode .inp = 901 ∧ encode .out = 902 ∧
  ∀ i : Instr, i.wellFormed = true → 0 ≤ encode i ∧ decode (encode i) = .known i

/-- The other direction of R88: a word that is not negative is the canonical encoding of what it
decodes to. -/
def Obligations.NonNegativeWordsEncodeBack : Prop :=
  ∀ (w : Int) (i : Instr), 0 ≤ w → w ≤ 999 → decode w = .known i → encode i = w

/-- R86: the opcode map. Every word falls in exactly one of its rows, and decodes as that row
says. -/
def Obligations.OpcodeMapIsTotal : Prop :=
  ∀ w : Int, InRange w →
    (w.natAbs ≤ 99 → decode w = .known (.halt w.natAbs)) ∧
    (100 ≤ w.natAbs → w.natAbs ≤ 199 → decode w = .known (.add (w.natAbs - 100))) ∧
    (200 ≤ w.natAbs → w.natAbs ≤ 299 → decode w = .known (.sub (w.natAbs - 200))) ∧
    (300 ≤ w.natAbs → w.natAbs ≤ 399 → decode w = .known (.store (w.natAbs - 300))) ∧
    (400 ≤ w.natAbs → w.natAbs ≤ 499 → decode w = .known (.nop (w.natAbs - 400))) ∧
    (500 ≤ w.natAbs → w.natAbs ≤ 599 → decode w = .known (.load (w.natAbs - 500))) ∧
    (600 ≤ w.natAbs → w.natAbs ≤ 699 → decode w = .known (.br (w.natAbs - 600))) ∧
    (700 ≤ w.natAbs → w.natAbs ≤ 799 → decode w = .known (.brz (w.natAbs - 700))) ∧
    (800 ≤ w.natAbs → w.natAbs ≤ 899 → decode w = .known (.brp (w.natAbs - 800))) ∧
    (w = 901 → decode w = .known .inp) ∧
    (w = 902 → decode w = .known .out) ∧
    (900 ≤ w.natAbs → w ≠ 901 → w ≠ 902 → decode w = .unknown (w.natAbs - 900))

/-- R82: IN and OUT are exactly the words +901 and +902, with no operand; −901 and −902 are
unknown. -/
def Obligations.FormatSIsTwoExactWords : Prop :=
  (∀ w : Int, decode w = .known .inp ↔ w = 901) ∧ (∀ w : Int, decode w = .known .out ↔ w = 902) ∧
  Instr.inp.operand = none ∧ Instr.out.operand = none ∧
  decode (-901) = .unknown 1 ∧ decode (-902) = .unknown 2

/-- R85: but for 901 and 902, the sign of a word does not matter to decode. -/
def Obligations.DecodeIgnoresTheSign : Prop :=
  ∀ w : Int, w.natAbs ≠ 901 → w.natAbs ≠ 902 → decode (-w) = decode w

/-- R84: the operand of every decoded instruction is the two low digits of the word, an address of
the machine. -/
def Obligations.OperandIsTheTwoLowDigits : Prop :=
  ∀ (w : Int) (i : Instr) (a : Nat), decode w = .known i → i.operand = some a →
    a = w.natAbs % 100 ∧ a < 100

/-! ### The instructions -/

/-- R141: ADD writes the exact sum and its flags, or raises OVERFLOW and commits nothing (D5; that the
report's address is PC − 1: log entry 6). -/
def Obligations.AddWritesSumOrOverflows : Prop :=
  ∀ (a : Nat) (s : State), a < 100 →
    (InRange (s.ac + s.mem.read a) →
      exec (.add a) s = .next
        { s with
          mar := a
          mbr := s.mem.read a
          ac := s.ac + s.mem.read a
          z := decide (s.ac + s.mem.read a = 0)
          n := decide (s.ac + s.mem.read a < 0)
          trace := s.trace ++
            [.reg .mar a, .memRead a, .reg .mbr (s.mem.read a), .reg .ac (s.ac + s.mem.read a),
              .flags (decide (s.ac + s.mem.read a = 0)) (decide (s.ac + s.mem.read a < 0))] }) ∧
    (¬ InRange (s.ac + s.mem.read a) →
      exec (.add a) s = .next
        { s with
          mar := a
          mbr := s.mem.read a
          rs := .errored
          cause := .overflow
          cyc := s.cyc + 1
          trace := s.trace ++
            [.reg .mar a, .memRead a, .reg .mbr (s.mem.read a),
              .error .overflow (s.pc - 1) s.ir (some (s.ac + s.mem.read a)), .runState .errored,
              .cycle (s.cyc + 1)] })

/-- R142: SUB writes AC minus the memory word and its flags, or raises OVERFLOW and commits nothing
(D5; that the report's address is PC − 1: log entry 6). -/
def Obligations.SubWritesDifferenceOrOverflows : Prop :=
  ∀ (a : Nat) (s : State), a < 100 →
    (InRange (s.ac - s.mem.read a) →
      exec (.sub a) s = .next
        { s with
          mar := a
          mbr := s.mem.read a
          ac := s.ac - s.mem.read a
          z := decide (s.ac - s.mem.read a = 0)
          n := decide (s.ac - s.mem.read a < 0)
          trace := s.trace ++
            [.reg .mar a, .memRead a, .reg .mbr (s.mem.read a), .reg .ac (s.ac - s.mem.read a),
              .flags (decide (s.ac - s.mem.read a = 0)) (decide (s.ac - s.mem.read a < 0))] }) ∧
    (¬ InRange (s.ac - s.mem.read a) →
      exec (.sub a) s = .next
        { s with
          mar := a
          mbr := s.mem.read a
          rs := .errored
          cause := .overflow
          cyc := s.cyc + 1
          trace := s.trace ++
            [.reg .mar a, .memRead a, .reg .mbr (s.mem.read a),
              .error .overflow (s.pc - 1) s.ir (some (s.ac - s.mem.read a)), .runState .errored,
              .cycle (s.cyc + 1)] })

/-- R161: STORE writes AC to the word at its operand, which every later read of it gives, and no
other word; it writes MAR and MBR, and no flag. -/
def Obligations.StoreWritesAcToItsAddress : Prop :=
  (∀ w : Int, 300 ≤ w.natAbs → w.natAbs ≤ 399 →
    decode w = .known (.store (w.natAbs - 300))) ∧
  ∀ (a : Nat) (s : State), a < 100 →
    exec (.store a) s = .next
      { s with
        mar := a
        mbr := s.ac
        mem := s.mem.write a s.ac
        trace := s.trace ++ [.reg .mar a, .reg .mbr s.ac, .memWritten a s.ac] } ∧
    (s.mem.wf → (s.mem.write a s.ac).read a = s.ac) ∧
    ∀ b : Nat, b ≠ a → (s.mem.write a s.ac).read b = s.mem.read b

/-- R162: LOAD writes the whole memory word to AC, with its flags. -/
def Obligations.LoadWritesMemoryWordToAc : Prop :=
  (∀ w : Int, 500 ≤ w.natAbs → w.natAbs ≤ 599 → decode w = .known (.load (w.natAbs - 500))) ∧
  ∀ (a : Nat) (s : State), a < 100 →
    exec (.load a) s = .next
      { s with
        mar := a
        mbr := s.mem.read a
        ac := s.mem.read a
        z := decide (s.mem.read a = 0)
        n := decide (s.mem.read a < 0)
        trace := s.trace ++
          [.reg .mar a, .memRead a, .reg .mbr (s.mem.read a), .reg .ac (s.mem.read a),
            .flags (decide (s.mem.read a = 0)) (decide (s.mem.read a < 0))] }

/-- R181: HALT stops the machine, whatever its operand; CAUSE stays (D26). -/
def Obligations.HaltStopsTheMachine : Prop :=
  (∀ w : Int, w.natAbs ≤ 99 → decode w = .known (.halt w.natAbs)) ∧
  ∀ (a : Nat) (s : State),
    exec (.halt a) s = .next
      { s with rs := .halted, trace := s.trace ++ [.runState .halted] }

/-- R181: the whole cycle of a HALT. The off-end check is skipped, and the cycle counts. -/
def Obligations.HaltCycleSkipsTheOffEndCheck : Prop :=
  ∀ s : State, cycleEnabled s → s.pc < 100 → (s.mem.read s.pc).natAbs ≤ 99 →
    step s = .next
      { s with
        pc := s.pc + 1
        mar := s.pc
        mbr := s.mem.read s.pc
        ir := s.mem.read s.pc
        rs := .halted
        cyc := s.cyc + 1
        trace := s.trace ++ startEvents s ++ fetchEvents s ++
          [.runState .halted, .cycle (s.cyc + 1)] }

/-- R182: NOP does nothing, whatever its operand: of its cycle only fetch's writes and those of
EndCycle happen, with the off-end check. -/
def Obligations.NopDoesNothing : Prop :=
  (∀ w : Int, 400 ≤ w.natAbs → w.natAbs ≤ 499 → decode w = .known (.nop (w.natAbs - 400))) ∧
  (∀ (a : Nat) (s : State), exec (.nop a) s = .next s) ∧
  ∀ (a : Nat) (s : State), cycleEnabled s → s.pc < 100 →
    decode (s.mem.read s.pc) = .known (.nop a) →
    step s = .next (endCycle
      { s with
        pc := s.pc + 1
        mar := s.pc
        mbr := s.mem.read s.pc
        ir := s.mem.read s.pc
        rs := .running
        trace := s.trace ++ startEvents s ++ fetchEvents s })

/-- R183: BR writes its operand to PC. A target inside the program goes on from there, its own
address too, and a target at or past PROG_END ends the run at this cycle's off-end check. -/
def Obligations.BrWritesPc : Prop :=
  (∀ w : Int, 600 ≤ w.natAbs → w.natAbs ≤ 699 → decode w = .known (.br (w.natAbs - 600))) ∧
  (∀ (a : Nat) (s : State), a < 100 →
    exec (.br a) s = .next { s with pc := a, trace := s.trace ++ [.reg .pc a] }) ∧
  ∀ (a : Nat) (s : State), cycleEnabled s → s.pc < 100 →
    decode (s.mem.read s.pc) = .known (.br a) →
    ∃ t, t = endCycle
        { s with
          pc := a
          mar := s.pc
          mbr := s.mem.read s.pc
          ir := s.mem.read s.pc
          rs := .running
          trace := s.trace ++ startEvents s ++ fetchEvents s ++ [.reg .pc a] } ∧
      step s = .next t ∧
      (a < s.progEnd → t.rs = .running ∧ t.cause = s.cause) ∧
      (s.progEnd ≤ a → t.rs = .halted ∧ t.cause = .outOfProgram)

/-- R184: BRZ writes its operand to PC exactly where AC is zero, whatever the flags are. -/
def Obligations.BrzTestsAcForZero : Prop :=
  (∀ w : Int, 700 ≤ w.natAbs → w.natAbs ≤ 799 → decode w = .known (.brz (w.natAbs - 700))) ∧
  ∀ (a : Nat) (s : State), a < 100 →
    (s.ac = 0 →
      exec (.brz a) s = .next { s with pc := a, trace := s.trace ++ [.reg .pc a] }) ∧
    (s.ac ≠ 0 → exec (.brz a) s = .next s)

/-- R185: BRP writes its operand to PC exactly where AC is not negative, whatever the flags are. -/
def Obligations.BrpTestsAcForNonNegative : Prop :=
  (∀ w : Int, 800 ≤ w.natAbs → w.natAbs ≤ 899 → decode w = .known (.brp (w.natAbs - 800))) ∧
  ∀ (a : Nat) (s : State), a < 100 →
    (0 ≤ s.ac →
      exec (.brp a) s = .next { s with pc := a, trace := s.trace ++ [.reg .pc a] }) ∧
    (s.ac < 0 → exec (.brp a) s = .next s)

/-- R211: IN raises the request, and nothing else (D6). -/
def Obligations.InRaisesTheRequest : Prop :=
  ∀ s : State, exec .inp s = .next { s with inReq := true }

/-- R211: the whole first half of an IN cycle. The cycle is suspended: it does not count, and no
cycle is enabled in the state it leaves (how the model says so: log entry 10). -/
def Obligations.InCycleIsSuspended : Prop :=
  ∀ s : State, cycleEnabled s → s.pc < 100 → s.mem.read s.pc = 901 →
    ∃ t, t =
        { s with
          pc := s.pc + 1
          mar := s.pc
          mbr := 901
          ir := 901
          rs := .running
          inReq := true
          trace := s.trace ++ startEvents s ++ fetchEvents s } ∧
      step s = .next t ∧ hostAct .cycle t = .fault .inputAwaited

/-- R213: OUT hands AC to the output port, and changes nothing else. -/
def Obligations.OutHandsAcToTheOutputPort : Prop :=
  (∀ w : Int, decode w = .known .out ↔ w = 902) ∧
  ∀ s : State,
    exec .out s = .next { s with outLog := s.outLog ++ [s.ac], trace := s.trace ++ [.output s.ac] }

/-- R212: an answer in range completes a waiting IN: AC and its flags are written, and the cycle
ends. The answer is the host's, or the next one of those queued (log entry 5). -/
def Obligations.InputAnswerInRangeIsAccepted : Prop :=
  ∀ (v : Int) (rest : List InputAnswer) (s : State), s.inReq = true → InRange v →
    ∃ t, t = endCycle
        { s with
          inReq := false
          ac := v
          z := decide (v = 0)
          n := decide (v < 0)
          trace := s.trace ++ [.reg .ac v, .flags (decide (v = 0)) (decide (v < 0))] } ∧
      hostAct (.input (.answer v)) s = .next t ∧
      step { s with answers := .answer v :: rest } = .next { t with answers := rest }

/-- R212: an answer out of range raises OVERFLOW, and AC and the flags keep their values (D7).
The answer is the host's, or the next one of those queued (log entry 5); the report's address is PC − 1
(log entry 6). -/
def Obligations.InputAnswerOutOfRangeOverflows : Prop :=
  ∀ (v : Int) (rest : List InputAnswer) (s : State), s.inReq = true → ¬ InRange v →
    ∃ t, t =
        { s with
          inReq := false
          rs := .errored
          cause := .overflow
          cyc := s.cyc + 1
          trace := s.trace ++
            [.error .overflow (s.pc - 1) s.ir (some v), .runState .errored,
              .cycle (s.cyc + 1)] } ∧
      hostAct (.input (.answer v)) s = .next t ∧
      step { s with answers := .answer v :: rest } = .next { t with answers := rest }

/-- R234: a cancellation of a pending request raises INPUT_CANCELLED, and no cycle and no other
completion does. The cancellation is the host's, or the next of the answers queued (log entry 5); the
report's address is PC − 1 (log entry 6). -/
def Obligations.InputCancelledOnlyByCancel : Prop :=
  (∀ (rest : List InputAnswer) (s : State), s.inReq = true →
    ∃ t, t =
        { s with
          inReq := false
          rs := .errored
          cause := .inputCancelled
          cyc := s.cyc + 1
          trace := s.trace ++
            [.error .inputCancelled (s.pc - 1) s.ir none, .runState .errored,
              .cycle (s.cyc + 1)] } ∧
      hostAct (.input .cancel) s = .next t ∧
      step { s with answers := .cancel :: rest } = .next { t with answers := rest }) ∧
  ∀ s t : State, step s = .next t → s.cause ≠ .inputCancelled → t.cause = .inputCancelled →
    s.inReq = true ∧ s.answers.head? = some .cancel

/-- A term whose operand is used as an address and is none (R54, R84) is no instruction, and stops.
The model's choice, log entry 7: no word decodes to such a term. -/
def Obligations.IllFormedAddressStops : Prop :=
  ∀ (a : Nat) (s : State), 100 ≤ a →
    exec (.add a) s = .fault (.addressOutsideMemory a) ∧
    exec (.sub a) s = .fault (.addressOutsideMemory a) ∧
    exec (.store a) s = .fault (.addressOutsideMemory a) ∧
    exec (.load a) s = .fault (.addressOutsideMemory a) ∧
    exec (.br a) s = .fault (.addressOutsideMemory a) ∧
    exec (.brz a) s = .fault (.addressOutsideMemory a) ∧
    exec (.brp a) s = .fault (.addressOutsideMemory a)

/-- R37: the frame of the execute phase. What each instruction leaves unchanged, over all its forms;
an ADD or a SUB that overflows also leaves AC and the flags. The queue of answers is the model's own
field (log entry 5). -/
def Obligations.ExecuteWritesOnlyItsTableRow : Prop :=
  ∀ (i : Instr) (s t : State), exec i s = .next t →
    (t.ir = s.ir ∧ t.progEnd = s.progEnd ∧ t.answers = s.answers) ∧
    ((∀ a, i ≠ .store a) → ∀ b, t.mem.read b = s.mem.read b) ∧
    (∀ a, i = .store a → ∀ b, b ≠ a → t.mem.read b = s.mem.read b) ∧
    ((∀ a, i ≠ .br a ∧ i ≠ .brz a ∧ i ≠ .brp a) → t.pc = s.pc) ∧
    ((∀ a, i ≠ .add a ∧ i ≠ .sub a ∧ i ≠ .load a) → t.ac = s.ac ∧ t.z = s.z ∧ t.n = s.n) ∧
    ((∀ a, i ≠ .add a ∧ i ≠ .sub a ∧ i ≠ .load a ∧ i ≠ .store a) →
      t.mar = s.mar ∧ t.mbr = s.mbr) ∧
    (i ≠ .inp → t.inReq = s.inReq) ∧
    (i ≠ .out → t.outLog = s.outLog) ∧
    ((∀ a, i ≠ .add a ∧ i ≠ .sub a) → t.cause = s.cause ∧ t.cyc = s.cyc) ∧
    ((∀ a, i ≠ .add a ∧ i ≠ .sub a ∧ i ≠ .halt a) → t.rs = s.rs) ∧
    ((∃ a, i = .add a ∨ i = .sub a) →
      (t.rs = s.rs ∧ t.cause = s.cause ∧ t.cyc = s.cyc) ∨
      (t.rs = .errored ∧ t.cause = .overflow ∧ t.cyc = s.cyc + 1 ∧
        t.ac = s.ac ∧ t.z = s.z ∧ t.n = s.n))

/-- R143: an ADD and then a SUB of the same word restore AC whenever both stay in range. -/
def Obligations.SubUndoesAdd : Prop :=
  ∀ (a : Nat) (s : State), a < 100 → InRange s.ac → InRange (s.ac + s.mem.read a) →
    ∃ t u, exec (.add a) s = .next t ∧ exec (.sub a) t = .next u ∧ u.ac = s.ac ∧
      u.z = decide (s.ac = 0) ∧ u.n = decide (s.ac < 0)

/-! ### The cycle -/

/-- R113, R114, R118: a step where a cycle is enabled runs the instruction the word at PC decodes to,
in the state fetch leaves, and ends the cycle unless the instruction raised a fault or waits
(D12, D18). -/
def Obligations.StepRunsDecodedInstruction : Prop :=
  ∀ (s : State) (i : Instr), cycleEnabled s → s.pc < 100 →
    decode (s.mem.read s.pc) = .known i →
    ∃ u t, exec i
        { s with
          pc := s.pc + 1
          mar := s.pc
          mbr := s.mem.read s.pc
          ir := s.mem.read s.pc
          rs := .running
          trace := s.trace ++ startEvents s ++ fetchEvents s } = .next u ∧
      step s = .next t ∧
      ((u.rs = .errored ∨ u.inReq = true) → t = u) ∧
      (u.rs ≠ .errored → u.inReq = false → t = endCycle u)

/-- R116, R117: the end of a cycle counts it, and halts a machine that still runs with PC at or past
PROG_END (D11, D21). -/
def Obligations.EndCycleChecksTheProgramEnd : Prop :=
  ∀ s : State,
    (s.rs = .running ∧ s.progEnd ≤ s.pc →
      endCycle s =
        { s with
          rs := .halted
          cause := .outOfProgram
          cyc := s.cyc + 1
          trace := s.trace ++
            [.warning .outOfProgram s.pc, .runState .halted, .cycle (s.cyc + 1)] }) ∧
    (¬ (s.rs = .running ∧ s.progEnd ≤ s.pc) →
      endCycle s = { s with cyc := s.cyc + 1, trace := s.trace ++ [.cycle (s.cyc + 1)] })

/-- R115, R233: a word with the hundreds digit 9, other than +901 and +902, and no other word, is
unknown, and its cycle raises UNKNOWN_OPCODE after fetch. -/
def Obligations.UnknownWordRaisesUnknownOpcode : Prop :=
  (∀ w : Int, (∃ a, decode w = .unknown a) ↔
    w.natAbs / 100 % 10 = 9 ∧ w ≠ 901 ∧ w ≠ 902) ∧
  ∀ (s : State) (a : Nat), cycleEnabled s → s.pc < 100 →
    decode (s.mem.read s.pc) = .unknown a →
    step s = .next
      { s with
        pc := s.pc + 1
        mar := s.pc
        mbr := s.mem.read s.pc
        ir := s.mem.read s.pc
        rs := .errored
        cause := .unknownOpcode
        cyc := s.cyc + 1
        trace := s.trace ++ startEvents s ++ fetchEvents s ++
          [.error .unknownOpcode s.pc (s.mem.read s.pc) (some (s.mem.read s.pc)),
            .runState .errored, .cycle (s.cyc + 1)] }

/-- R112, R235: a cycle with PC outside the memory raises BOUNDS, writes no register and reads no
memory (D8). -/
def Obligations.FetchOutsideMemoryRaisesBounds : Prop :=
  ∀ s : State, cycleEnabled s → 100 ≤ s.pc →
    step s = .next
      { s with
        rs := .errored
        cause := .bounds
        cyc := s.cyc + 1
        trace := s.trace ++ startEvents s ++
          [.error .bounds s.pc s.ir (some (s.pc : Int)), .runState .errored,
            .cycle (s.cyc + 1)] }

/-- R237: the entry into ERRORED, the machine's one exception entry. It writes RS and CAUSE, counts
the cycle with no off-end check, and saves and changes nothing else. No further cycle is enabled. -/
def Obligations.RaiseFaultEntersErrored : Prop :=
  ∀ (c : Cause) (ia : Nat) (v : Option Int) (s : State),
    raiseFault c ia v s =
      { s with
        rs := .errored
        cause := c
        cyc := s.cyc + 1
        trace := s.trace ++
          [.error c ia s.ir v, .runState .errored, .cycle (s.cyc + 1)] } ∧
    stepReturns (raiseFault c ia v s) = false ∧ ¬ cycleEnabled (raiseFault c ia v s)

/-- R110: when a cycle is enabled, and that while an IN waits only an answer, a cancellation or
reset moves the machine. `step` also goes on where an IN waits and an answer is queued
(log entry 5). -/
def Obligations.CycleIsEnabledExactlyWhenItMayRun : Prop :=
  (∀ s : State, (∃ t, hostAct .cycle s = .next t) ↔
    (s.rs = .ready ∨ s.rs = .running) ∧ s.inReq = false) ∧
  (∀ s : State, (∃ t, step s = .next t) ↔
    ((s.rs = .ready ∨ s.rs = .running) ∧ s.inReq = false) ∨
      (s.inReq = true ∧ s.answers ≠ [])) ∧
  ∀ (s t : State) (act : HostAction), s.inReq = true → hostAct act s = .next t → t ≠ s →
    act = .reset ∨ ∃ x, act = .input x

/-- R240, R119, R282: HALTED and ERRORED are left only by reset, which restores the full reset state
and clears CAUSE. The faults by which a step stops there are the model's (log entry 10), and so is what
reset does to the trace and the queue of answers (log entries 4 and 5). -/
def Obligations.TerminalStatesAreLeftOnlyByReset : Prop :=
  ∀ s : State, s.Inv → s.ended →
    (s.rs = .halted → step s = .fault .halted) ∧
    (s.rs = .errored → step s = .fault .errored) ∧
    (∀ (act : HostAction) (t : State), hostAct act s = .next t → act ≠ .reset → t = s) ∧
    hostAct .reset s =
      .next { State.reset with trace := s.trace ++ [.runState .ready] }

/-- R125: the events of a cycle that raises no fault and does not wait, in their order
(D17, D18). -/
def Obligations.CycleEmitsItsEventsInOrder : Prop :=
  ∀ (s t : State) (i : Instr), cycleEnabled s → s.pc < 100 →
    decode (s.mem.read s.pc) = .known i → step s = .next t → t.rs ≠ .errored →
    t.inReq = false →
    t.trace = s.trace ++ startEvents s ++ fetchEvents s ++ executeEvents s i ++
      (if t.rs = .halted ∧ isHalt i = false then
        [.warning .outOfProgram t.pc, .runState .halted] else []) ++
      [.cycle (s.cyc + 1)]

/-- R63: a STORE to the next instruction's address is seen by the very next fetch, and a STORE to its
own address leaves the instruction being executed in IR. -/
def Obligations.StoreIsSeenByTheNextFetch : Prop :=
  ∀ (s t : State) (a : Nat), s.mem.wf → cycleEnabled s → s.pc < 100 →
    decode (s.mem.read s.pc) = .known (.store a) → step s = .next t →
    t.ir = s.mem.read s.pc ∧ t.mem.read a = s.ac ∧
    ∀ u, a = s.pc + 1 → step t = .next u → u.ir = s.ac

/-- R22, R113, R180: where PC goes. -/
def Obligations.PcFollowsFetchAndBranches : Prop :=
  ∀ s t : State, step s = .next t →
    (cycleEnabled s → s.pc < 100 →
      t.pc =
        match decode (s.mem.read s.pc) with
        | .known (.br a) => a
        | .known (.brz a) => if s.ac = 0 then a else s.pc + 1
        | .known (.brp a) => if 0 ≤ s.ac then a else s.pc + 1
        | _ => s.pc + 1) ∧
    (¬ (cycleEnabled s ∧ s.pc < 100) → t.pc = s.pc)

/-- R116: a machine that still runs after a step, and does not wait, has PC inside the program, so
with PROG_END at most 100 no fetch is out of bounds (R112). -/
def Obligations.RunningStaysInsideTheProgram : Prop :=
  ∀ s t : State, step s = .next t → t.rs = .running → t.inReq = false → t.pc < t.progEnd

/-! ### The rules of the whole machine -/

/-- R53: STORE is the only instruction that writes memory, and it writes AC. -/
def Obligations.OnlyStoreWritesMemory : Prop :=
  ∀ s t : State, step s = .next t →
    t.mem = s.mem ∨
    (cycleEnabled s ∧ s.pc < 100 ∧
      ∃ a, decode (s.mem.read s.pc) = .known (.store a) ∧ t.mem = s.mem.write a s.ac)

/-- R23, R24, R140: the flags are written only with AC, by ADD, SUB, LOAD and the completion of an
IN, and then they follow the new AC (D5). That a waiting IN is completed with the next of the answers
queued is the model's choice (log entry 5). -/
def Obligations.FlagsAreWrittenOnlyWithAc : Prop :=
  ∀ s t : State, step s = .next t →
    (t.ac = s.ac ∧ t.z = s.z ∧ t.n = s.n) ∨
    (t.z = decide (t.ac = 0) ∧ t.n = decide (t.ac < 0) ∧
      (s.inReq = true → s.answers.head? = some (.answer t.ac)) ∧
      (s.inReq = false → s.pc < 100 ∧
        ∃ a, decode (s.mem.read s.pc) = .known (.add a) ∨
          decode (s.mem.read s.pc) = .known (.sub a) ∨
          decode (s.mem.read s.pc) = .known (.load a)))

/-- R36, R213: the output record grows only by OUT, by AC. -/
def Obligations.OnlyOutExtendsTheOutputRecord : Prop :=
  ∀ s t : State, step s = .next t →
    (t.outLog = s.outLog ++ [s.ac] ∧ cycleEnabled s ∧ s.pc < 100 ∧ s.mem.read s.pc = 902) ∨
    (t.outLog = s.outLog ∧ ¬ (cycleEnabled s ∧ s.pc < 100 ∧ s.mem.read s.pc = 902))

/-- R26: IR is written only by fetch, with the word at PC. -/
def Obligations.OnlyFetchWritesIr : Prop :=
  ∀ s t : State, step s = .next t →
    (cycleEnabled s → s.pc < 100 → t.ir = s.mem.read s.pc) ∧
    (¬ (cycleEnabled s ∧ s.pc < 100) → t.ir = s.ir)

/-- R231, R239, R250: every fatal cause is raised only under its own condition. The two conditions
of IN are about the next of the answers queued, which is the model's choice (log entry 5). -/
def Obligations.FatalCausesHaveTheirConditions : Prop :=
  ∀ s t : State, step s = .next t → s.rs ≠ .errored → t.rs = .errored →
    (t.cause = .bounds ∧ s.inReq = false ∧ 100 ≤ s.pc) ∨
    (t.cause = .unknownOpcode ∧ s.inReq = false ∧ s.pc < 100 ∧
      ∃ a, decode (s.mem.read s.pc) = .unknown a) ∨
    (t.cause = .overflow ∧ s.inReq = false ∧ s.pc < 100 ∧
      ∃ a, (decode (s.mem.read s.pc) = .known (.add a) ∧ ¬ InRange (s.ac + s.mem.read a)) ∨
        (decode (s.mem.read s.pc) = .known (.sub a) ∧ ¬ InRange (s.ac - s.mem.read a))) ∨
    (t.cause = .overflow ∧ s.inReq = true ∧
      ∃ v, s.answers.head? = some (.answer v) ∧ ¬ InRange v) ∨
    (t.cause = .inputCancelled ∧ s.inReq = true ∧ s.answers.head? = some .cancel)

/-- R231, R250: the run state and the cause agree at reset, and every step keeps it so. -/
def Obligations.CauseAgreesWithTheRunState : Prop :=
  causeAgrees State.reset.rs State.reset.cause = true ∧
  ∀ s t : State, causeAgrees s.rs s.cause = true → step s = .next t →
    causeAgrees t.rs t.cause = true

/-- R30: a step never leaves the machine READY, and brings it to HALTED only by HALT, with CAUSE
unchanged, or off the end of the program (D12, D21, D26). -/
def Obligations.RunStateFollowsItsTransitions : Prop :=
  ∀ s t : State, s.Inv → step s = .next t →
    t.rs ≠ .ready ∧
    (s.rs ≠ .halted → t.rs = .halted →
      (s.inReq = false ∧ t.cause = s.cause ∧ ∃ a, decode (s.mem.read s.pc) = .known (.halt a)) ∨
      (t.cause = .outOfProgram ∧ t.progEnd ≤ t.pc))

/-- R25: in every reachable state, the flags follow AC if it has been written since the last reset, and
AC and the flags have their reset values if it has not. Whether it has been written is read from the
trace, which the model keeps in State (log entry 4). -/
def Obligations.FlagsFollowAcOnceItIsWritten : Prop :=
  ∀ s : State, Reachable s → s.flagsFollowAc

/-- R32, R40: in every reachable state CYC is the number of cycles completed since reset (D11). They
are read from the trace, which the model keeps in State (log entry 4). -/
def Obligations.CycCountsTheCompletedCycles : Prop :=
  ∀ s : State, Reachable s → s.cycCounted

/-- R124: the trace port has no effect on the machine. What has been emitted changes nothing a step
does, but for the events themselves. That they are kept in State is the model's choice (log entry 4). -/
def Obligations.TracePortHasNoEffect : Prop :=
  ∀ (s : State) (events : List Event),
    forgetTrace (step { s with trace := events }) = forgetTrace (step s)

/-- R25, R184, R185: no instruction's result depends on the flags. -/
def Obligations.FlagsHaveNoEffect : Prop :=
  ∀ (s : State) (z n : Bool),
    forgetFlags (step { s with z := z, n := n }) = forgetFlags (step s)

/-- The canonical form of the memory (log entry 2): two memories that read the same everywhere are
the same. -/
def Obligations.MemoryIsDeterminedByItsWords : Prop :=
  ∀ m₁ m₂ : Memory, m₁.wf → m₂.wf → (∀ a, m₁.read a = m₂.read a) → m₁ = m₂

/-- R40 at reset. The canonical form of the memory, a part of the invariant, is the model's (log
entry 2). -/
def Obligations.InvariantHoldsAtReset : Prop :=
  State.reset.Inv

/-- R40: every step from a state with the invariant keeps it: PC in 0..100, MAR in 0..99, every
register and memory word in range, the memory in canonical form, and an IN waiting only in RUNNING
with 901 in IR. The canonical form is the model's (log entry 2). -/
def Obligations.StepKeepsTheInvariant : Prop :=
  ∀ s t : State, s.Inv → step s = .next t → t.Inv

/-- R40: the invariant holds in every state reachable from reset, whatever the host does. The canonical
form of the memory, a part of it, is the model's (log entry 2). -/
def Obligations.EveryReachableStateHasTheInvariant : Prop :=
  ∀ s : State, Reachable s → s.Inv

/-- R280: a program that executes no branch stops, or waits for an answer, after at most as many
cycles as addresses are left, with at most two steps a cycle (an IN takes two, log entry 9). The answers are those queued (log entry 5). -/
def Obligations.BranchFreeRunStops : Prop :=
  ∀ s : State, s.Inv → cycleEnabled s → s.pc < 100 → s.progEnd ≤ 100 → branchFree 200 s →
    ∃ (k : Nat) (t : State), k ≤ 2 * (100 - s.pc) ∧ Host.Core.run core k s = .next t ∧
      (t.ended ∨ t.waits) ∧ t.cyc ≤ s.cyc + (100 - s.pc) ∧ t.pc ≤ 100

/-- R276, R183: a BR to its own address inside the program hangs: the machine never stops. -/
def Obligations.BranchToItselfHangs : Prop :=
  ∀ s : State, cycleEnabled s → s.pc < 100 → s.pc < s.progEnd →
    decode (s.mem.read s.pc) = .known (.br s.pc) →
    ∀ k, ∃ t, Host.Core.run core k s = .next t ∧ ¬ t.ended ∧ t.cyc = s.cyc + k ∧ t.pc = s.pc

/-! ### Reset, load and host control -/

/-- R38: the values after reset (D9, D19, D28 for CAUSE, INREQ and PROG_END; the trace, the output
record and the queued answers are the model's own, log entries 4 and 5). -/
def Obligations.ResetLeavesTheseValues : Prop :=
  State.reset.pc = 0 ∧ State.reset.ac = 0 ∧ State.reset.ir = 0 ∧ State.reset.mar = 0 ∧
  State.reset.mbr = 0 ∧ State.reset.z = false ∧ State.reset.n = false ∧
  State.reset.rs = .ready ∧ State.reset.cyc = 0 ∧ State.reset.cause = .none ∧
  State.reset.inReq = false ∧ State.reset.progEnd = 0 ∧
  (∀ a, State.reset.mem.read a = 0) ∧
  State.reset.outLog = [] ∧ State.reset.trace = [.runState .ready] ∧ State.reset.answers = []

/-- R270, R281: reset is accepted in every state and leaves the reset state, with one more event and
nothing of the state before (D20). That the trace goes on and the queued answers are dropped are the
model's choices (log entries 4 and 5). -/
def Obligations.ResetIsAcceptedInEveryState : Prop :=
  ∀ s : State,
    hostAct .reset s = .next { State.reset with trace := s.trace ++ [.runState .ready] }

/-- R272: the load operation is accepted exactly in a state reset leaves and for an image of words at
addresses of the machine, and refused otherwise (D2, D16). The model's own: that a memory of zeros is the empty list
(log entries 2 and 12), and under which name a load is refused, an address before a word
(log entry 12). -/
def Obligations.LoadIsAcceptedExactlyAfterReset : Prop :=
  ∀ (image : List (Nat × Int)) (pe : Nat) (s : State),
    ((∃ t, hostAct (.load image pe) s = .next t) ↔
      (s.rs = .ready ∧ s.cyc = 0 ∧ s.inReq = false ∧ s.mem = []) ∧
        ∀ c ∈ image, c.1 ≤ 99 ∧ InRange c.2) ∧
    (¬ (s.rs = .ready ∧ s.cyc = 0 ∧ s.inReq = false ∧ s.mem = []) →
      hostAct (.load image pe) s = .refused .loadNotAfterReset) ∧
    (s.rs = .ready ∧ s.cyc = 0 ∧ s.inReq = false ∧ s.mem = [] →
      ((∃ c ∈ image, 99 < c.1) →
        hostAct (.load image pe) s = .refused .loadAddressOutsideMemory) ∧
      ((∀ c ∈ image, c.1 ≤ 99) → (∃ c ∈ image, ¬ InRange c.2) →
        hostAct (.load image pe) s = .refused .loadWordOutOfRange))

/-- R273, R60, R65: the launch state, after a reset in any state and a load: the reset state, but
for PROG_END and the memory, which holds the image's last word at each address and 0 elsewhere, in
its canonical form. The canonical form, the queue of answers, empty here, and the trace are the model's
(log entries 2, 5 and 4). -/
def Obligations.LaunchStateHoldsTheImage : Prop :=
  ∀ (image : List (Nat × Int)) (pe : Nat) (s : State),
    (∀ c ∈ image, c.1 ≤ 99 ∧ InRange c.2) →
    ∃ t m, hostAct (.load image pe) (hostReset s) = .next t ∧
      t = { State.reset with
        trace := s.trace ++ [.runState .ready], progEnd := pe, mem := m } ∧
      m.wf ∧ ∀ a, m.read a = imageWord image a

/-- R274, R120: pacing decides only when cycles happen. `pause` and `setRate` change no state, and
`singleStep` is one cycle (D23, D24). The rest is about `run` as the model has it (log entry 11): a run
of at most `k` steps is accepted exactly where a cycle is enabled, and is nothing but steps, `k` of them
unless the machine stops or waits before; and one that is paused and goes on is the same run, also where
the pause fell into the wait of an IN, in which the host's `run` is refused. -/
def Obligations.PacingChangesNoResult : Prop :=
  (∀ s : State, hostAct .pause s = .next s) ∧
  (∀ (rate : Nat) (s : State), hostAct (.setRate rate) s = .next s) ∧
  (∀ s : State, hostAct .singleStep s = hostAct .cycle s) ∧
  (∀ (k : Nat) (s : State), cycleEnabled s →
    ∃ (j : Nat) (t : State), j ≤ k ∧ hostAct (.run k) s = .next t ∧
      Host.Core.run core j s = .next t ∧ (j < k → ∀ u, step t ≠ .next u)) ∧
  (∀ (k : Nat) (s : State), ¬ cycleEnabled s → hostAct (.run k) s = .refused .runNotEnabled) ∧
  ∀ (j k : Nat) (s t : State), hostAct (.run j) s = .next t →
    hostAct (.run (j + k)) s = .next (runSteps k t) ∧
    (cycleEnabled t → hostAct (.run (j + k)) s = hostAct (.run k) t)

/-- The word placed where the machine fetches next is the one the next cycle fetches. The model's
own, log entry 3. -/
def Obligations.PlacedWordIsFetchedNext : Prop :=
  ∀ (s : State) (nbits w : Nat), s.mem.wf → w ≤ 999 →
    ∃ t, t = s.withFetchWord nbits w ∧ cycleEnabled t ∧ t.pc < 100 ∧ t.mem.read t.pc = (w : Int) ∧
      (cycleEnabled s → s.pc < 100 →
        t = { s with mem := s.mem.write s.pc (w : Int) })
end

