-- ==== Sys2Proof/Laws/Word.lean ====
section
/-! SUPPORT. The constants of R5 as numerals, for linear arithmetic. -/

namespace Sys2Proof

@[simp] theorem Config.memSize_eq : Config.memSize = 100 := rfl

@[simp] theorem Config.unlistedWord_eq : Config.unlistedWord = 0 := rfl

theorem inRange_iff {v : Int} : InRange v ↔ -999 ≤ v ∧ v ≤ 999 := Iff.rfl

end Sys2Proof
end

