-- ==== Sys2Proof/Laws/Decode.lean ====
section
/-! SUPPORT. What decode can answer. -/

namespace Sys2Proof

theorem digit2_lt (w : Int) : digit2 w < 10 := Nat.mod_lt _ (by decide)

theorem digits10_lt (w : Int) : digits10 w < Config.memSize := Nat.mod_lt _ (by decide)

/-- What format D can give as an instruction: one whose operand is the two low digits, and whose
encoding has these digits. Both together name the instruction (R81, R88). -/
theorem decodeDigit_known {d a : Nat} {i : Instr} (h : decodeDigit d a = .known i) :
    d < 9 ∧ i.operand = some a ∧ encode i = encodeDigit d a := by
  unfold decodeDigit at h
  split at h <;> cases h <;> exact ⟨by decide, rfl, rfl⟩

/-- Only the hundreds digit 9 is no opcode of format D, R87. -/
theorem decodeDigit_unknown {d a b : Nat} (hd : d < 10) (h : decodeDigit d a = .unknown b) :
    d = 9 ∧ b = a := by
  interval_cases d <;> simp_all [decodeDigit]

/-- Where decode can read from: the two special words, or format D (R82, R83). -/
theorem decode_cases (w : Int) :
    (w = 901 ∧ decode w = .known .inp) ∨ (w = 902 ∧ decode w = .known .out) ∨
    (w ≠ 901 ∧ w ≠ 902 ∧ decode w = decodeDigit (digit2 w) (digits10 w)) := by
  by_cases hi : w = 901
  · exact .inl ⟨hi, if_pos hi⟩
  · by_cases ho : w = 902
    · exact .inr (.inl ⟨ho, by rw [decode, if_neg hi, if_pos ho]⟩)
    · exact .inr (.inr ⟨hi, ho, by rw [decode, if_neg hi, if_neg ho]⟩)

/-- Everything decode can answer with an instruction, R83: IN, OUT, or the instruction of format D
that has the word's digits. -/
theorem decode_known {w : Int} {i : Instr} (h : decode w = .known i) :
    (w = 901 ∧ i = .inp) ∨ (w = 902 ∧ i = .out) ∨
    (w ≠ 901 ∧ w ≠ 902 ∧ digit2 w < 9 ∧ i.operand = some (digits10 w) ∧
      encode i = encodeDigit (digit2 w) (digits10 w)) := by
  rcases decode_cases w with ⟨hw, hd⟩ | ⟨hw, hd⟩ | ⟨hi, ho, hd⟩ <;> rw [h] at hd
  · exact .inl ⟨hw, Decoded.known.inj hd⟩
  · exact .inr (.inl ⟨hw, Decoded.known.inj hd⟩)
  · exact .inr (.inr ⟨hi, ho, decodeDigit_known hd.symm⟩)

/-- Only a word whose hundreds digit is 9 is unknown, and neither +901 nor +902 is, R87. -/
theorem decode_unknown {w : Int} {a : Nat} (h : decode w = .unknown a) :
    digit2 w = 9 ∧ a = digits10 w ∧ w ≠ 901 ∧ w ≠ 902 := by
  rcases decode_cases w with ⟨-, hd⟩ | ⟨-, hd⟩ | ⟨hi, ho, hd⟩ <;> rw [h] at hd
  · cases hd
  · cases hd
  · obtain ⟨h9, ha⟩ := decodeDigit_unknown (digit2_lt w) hd.symm
    exact ⟨h9, ha, hi, ho⟩

/-- Decode reads only instructions: the operand lies in 0..99, R84. -/
theorem decode_wellFormed {w : Int} {i : Instr} (h : decode w = .known i) :
    i.wellFormed = true := by
  rcases decode_known h with ⟨-, rfl⟩ | ⟨-, rfl⟩ | ⟨-, -, -, ha, -⟩
  · rfl
  · rfl
  · simpa [Instr.wellFormed, ha] using digits10_lt w

/-- The one word that decodes to IN, R82. -/
theorem decode_inp {w : Int} (h : decode w = .known .inp) : w = 901 := by
  rcases decode_known h with ⟨hw, -⟩ | ⟨-, hi⟩ | ⟨-, -, -, ha, -⟩
  · exact hw
  · cases hi
  · cases ha

/-- The one word that decodes to OUT, R82. -/
theorem decode_out {w : Int} (h : decode w = .known .out) : w = 902 := by
  rcases decode_known h with ⟨-, hi⟩ | ⟨hw, -⟩ | ⟨-, -, -, ha, -⟩
  · cases hi
  · exact hw
  · cases ha

end Sys2Proof
end

