-- ==== Sys2Proof/Laws/Memory.lean ====
section
/-! SUPPORT. The laws of the memory: a read after a write, and that every operation keeps the
canonical form and the word range. -/

namespace Sys2Proof.Machine

@[simp] theorem Memory.read_nil (a : Nat) : Memory.read [] a = 0 := rfl

theorem Memory.read_cons (k : Nat) (w : Int) (m : Memory) (a : Nat) :
    Memory.read ((k, w) :: m) a = if k = a then w else m.read a := rfl

/-- An address no entry lists reads as 0. -/
theorem Memory.read_of_unlisted {m : Memory} {a : Nat} (h : ∀ c ∈ m, c.1 ≠ a) : m.read a = 0 := by
  induction m with
  | nil => rfl
  | cons c m ih =>
    obtain ⟨k, w⟩ := c
    have hk : k ≠ a := h (k, w) (by simp)
    rw [Memory.read_cons, if_neg hk]
    exact ih fun c hc => h c (by simp [hc])

/-- An entry of a canonical memory is what its address reads as. -/
theorem Memory.read_of_mem {m : Memory} (h : m.wf) {c : Nat × Int} (hc : c ∈ m) :
    m.read c.1 = c.2 := by
  induction m with
  | nil => simp at hc
  | cons d m ih =>
    obtain ⟨k, w⟩ := d
    obtain ⟨hp, hm⟩ := h
    rw [List.pairwise_cons] at hp
    rcases List.mem_cons.mp hc with rfl | hc'
    · simp [Memory.read_cons]
    · have hlt : k < c.1 := hp.1 c hc'
      rw [Memory.read_cons, if_neg (by omega)]
      exact ih ⟨hp.2, fun d hd => hm d (by simp [hd])⟩ hc'

theorem Memory.read_insertHead {m : Memory} {a : Nat} (v : Int) (h : ∀ c ∈ m, a < c.1) (b : Nat) :
    (Memory.insertHead a v m).read b = if b = a then v else m.read b := by
  unfold Memory.insertHead
  by_cases hv : v = Config.unlistedWord
  · rw [if_pos hv]
    by_cases hb : b = a
    · subst hb
      rw [if_pos rfl, Memory.read_of_unlisted fun c hc => (Nat.ne_of_gt (h c hc))]
      exact hv.symm
    · rw [if_neg hb]
  · rw [if_neg hv, Memory.read_cons]
    by_cases hb : b = a
    · rw [if_pos hb.symm, if_pos hb]
    · rw [if_neg (Ne.symm hb), if_neg hb]

/-- A read after a write: the word written at its address, and every other word as before (R52,
R53, R61). -/
theorem Memory.read_write {m : Memory} (hm : m.wf) (a : Nat) (v : Int) (b : Nat) :
    (m.write a v).read b = if b = a then v else m.read b := by
  induction m with
  | nil => exact Memory.read_insertHead v (by simp) b
  | cons c m ih =>
    obtain ⟨k, w⟩ := c
    obtain ⟨hp, hc⟩ := hm
    rw [List.pairwise_cons] at hp
    have htail : Memory.wf m := ⟨hp.2, fun d hd => hc d (by simp [hd])⟩
    unfold Memory.write
    by_cases hlt : k < a
    · rw [if_pos hlt, Memory.read_cons, Memory.read_cons, ih htail]
      by_cases hb : b = a
      · have hk : k ≠ b := by omega
        rw [if_neg hk, if_pos hb, if_pos hb]
      · rw [if_neg hb, if_neg hb]
    · rw [if_neg hlt]
      by_cases heq : k = a
      · subst heq
        rw [if_pos rfl, Memory.read_insertHead v hp.1 b, Memory.read_cons]
        by_cases hb : b = k
        · rw [if_pos hb, if_pos hb]
        · rw [if_neg hb, if_neg hb, if_neg (Ne.symm hb)]
      · rw [if_neg heq]
        refine Memory.read_insertHead v ?_ b
        rintro d (_ | ⟨_, hd⟩)
        · omega
        · have := hp.1 d hd
          omega

theorem Memory.read_write_same {m : Memory} (hm : m.wf) (a : Nat) (v : Int) :
    (m.write a v).read a = v := by
  rw [Memory.read_write hm, if_pos rfl]

theorem Memory.read_insertHead_other (m : Memory) {a b : Nat} (v : Int) (h : b ≠ a) :
    (Memory.insertHead a v m).read b = m.read b := by
  unfold Memory.insertHead
  split
  · rfl
  · rw [Memory.read_cons, if_neg (Ne.symm h)]

/-- A write leaves every other word alone, in whatever form the memory is. -/
theorem Memory.read_write_other (m : Memory) {a b : Nat} (v : Int) (h : b ≠ a) :
    (m.write a v).read b = m.read b := by
  induction m with
  | nil => exact Memory.read_insertHead_other [] v h
  | cons c m ih =>
    obtain ⟨k, w⟩ := c
    unfold Memory.write
    split
    · rw [Memory.read_cons, Memory.read_cons, ih]
    · split
      · next _ heq =>
        rw [Memory.read_insertHead_other m v h, Memory.read_cons, if_neg (by omega)]
      · exact Memory.read_insertHead_other _ v h

theorem Memory.mem_insertHead {m : Memory} {a : Nat} {v : Int} {c : Nat × Int}
    (h : c ∈ Memory.insertHead a v m) : (c = (a, v) ∧ v ≠ 0) ∨ c ∈ m := by
  unfold Memory.insertHead at h
  split at h
  · exact .inr h
  · rcases List.mem_cons.mp h with h' | h'
    · exact .inl ⟨h', ‹_›⟩
    · exact .inr h'

/-- The entries after a write are the entry written, or old ones. -/
theorem Memory.mem_write {m : Memory} {a : Nat} {v : Int} {c : Nat × Int}
    (h : c ∈ m.write a v) : (c = (a, v) ∧ v ≠ 0) ∨ c ∈ m := by
  induction m with
  | nil => exact Memory.mem_insertHead h
  | cons d m ih =>
    obtain ⟨k, w⟩ := d
    unfold Memory.write at h
    split at h
    · rcases List.mem_cons.mp h with h' | h'
      · exact .inr (by simp [h'])
      · exact (ih h').imp_right fun h => by simp [h]
    · split at h
      · exact (Memory.mem_insertHead h).imp_right fun h => by simp [h]
      · exact Memory.mem_insertHead h

theorem Memory.pairwise_insertHead {m : Memory} {a : Nat} (v : Int)
    (hp : m.Pairwise fun c d => c.1 < d.1) (h : ∀ c ∈ m, a < c.1) :
    (Memory.insertHead a v m).Pairwise fun c d => c.1 < d.1 := by
  unfold Memory.insertHead
  split
  · exact hp
  · exact List.pairwise_cons.mpr ⟨h, hp⟩

/-- A write keeps the canonical form. -/
theorem Memory.write_wf {m : Memory} (hm : m.wf) {a : Nat} (ha : a < Config.memSize) (v : Int) :
    (m.write a v).wf := by
  obtain ⟨hp, hc⟩ := hm
  refine ⟨?_, fun c h => ?_⟩
  · clear hc
    induction m with
    | nil => exact Memory.pairwise_insertHead v .nil (by simp)
    | cons d m ih =>
      obtain ⟨k, w⟩ := d
      have hp' := List.pairwise_cons.mp hp
      unfold Memory.write
      split
      · refine List.pairwise_cons.mpr ⟨fun c h => ?_, ih hp'.2⟩
        rcases Memory.mem_write h with ⟨rfl, -⟩ | h'
        · assumption
        · exact hp'.1 c h'
      · split
        · next _ heq => exact Memory.pairwise_insertHead v hp'.2 (heq ▸ hp'.1)
        · refine Memory.pairwise_insertHead v hp ?_
          rintro c (_ | ⟨_, h⟩)
          · omega
          · have := hp'.1 c h
            omega
  · rcases Memory.mem_write h with ⟨rfl, hv⟩ | h'
    · exact ⟨ha, hv⟩
    · exact hc c h'

/-- A write of a word in range keeps every entry in range. -/
theorem Memory.write_inRange {m : Memory} (hm : ∀ c ∈ m, InRange c.2) (a : Nat) {v : Int}
    (hv : InRange v) : ∀ c ∈ m.write a v, InRange c.2 := by
  intro c h
  rcases Memory.mem_write h with ⟨rfl, -⟩ | h'
  · exact hv
  · exact hm c h'

/-- A memory whose entries are in range reads words in range at every address. -/
theorem Memory.read_inRange {m : Memory} (hm : ∀ c ∈ m, InRange c.2) (a : Nat) :
    InRange (m.read a) := by
  induction m with
  | nil => exact (by decide : InRange 0)
  | cons c m ih =>
    obtain ⟨k, w⟩ := c
    rw [Memory.read_cons]
    split
    · exact hm (k, w) (by simp)
    · exact ih fun c hc => hm c (by simp [hc])

/-- A load image with addresses of the machine keeps the canonical form. -/
theorem Memory.writeAll_wf {image : List (Nat × Int)} (hi : ∀ c ∈ image, c.1 < Config.memSize)
    {m : Memory} (hm : m.wf) : (m.writeAll image).wf := by
  induction image generalizing m with
  | nil => exact hm
  | cons c image ih =>
    exact ih (fun d hd => hi d (by simp [hd])) (Memory.write_wf hm (hi c (by simp)) c.2)

/-- A load image with words in range leaves every entry in range. -/
theorem Memory.writeAll_inRange {image : List (Nat × Int)} (hi : ∀ c ∈ image, InRange c.2)
    {m : Memory} (hm : ∀ c ∈ m, InRange c.2) : ∀ c ∈ m.writeAll image, InRange c.2 := by
  induction image generalizing m with
  | nil => exact hm
  | cons c image ih =>
    exact ih (fun d hd => hi d (by simp [hd])) (Memory.write_inRange hm c.1 (hi c (by simp)))

theorem Memory.reset_wf : State.reset.mem.wf := by decide

end Sys2Proof.Machine
end

