-- ==== Sys2Proof/Laws/State.lean ====
section
/-! SUPPORT. What each update of the state does to each field of it, by definition. -/

namespace Sys2Proof.Machine

/-! ### `emit`: `Emit`, R9. -/

@[simp] theorem emit_pc (e : Event) (s : State) : (emit e s).pc = s.pc := rfl
@[simp] theorem emit_ac (e : Event) (s : State) : (emit e s).ac = s.ac := rfl
@[simp] theorem emit_ir (e : Event) (s : State) : (emit e s).ir = s.ir := rfl
@[simp] theorem emit_mar (e : Event) (s : State) : (emit e s).mar = s.mar := rfl
@[simp] theorem emit_mbr (e : Event) (s : State) : (emit e s).mbr = s.mbr := rfl
@[simp] theorem emit_z (e : Event) (s : State) : (emit e s).z = s.z := rfl
@[simp] theorem emit_n (e : Event) (s : State) : (emit e s).n = s.n := rfl
@[simp] theorem emit_rs (e : Event) (s : State) : (emit e s).rs = s.rs := rfl
@[simp] theorem emit_cause (e : Event) (s : State) : (emit e s).cause = s.cause := rfl
@[simp] theorem emit_cyc (e : Event) (s : State) : (emit e s).cyc = s.cyc := rfl
@[simp] theorem emit_inReq (e : Event) (s : State) : (emit e s).inReq = s.inReq := rfl
@[simp] theorem emit_progEnd (e : Event) (s : State) : (emit e s).progEnd = s.progEnd := rfl
@[simp] theorem emit_mem (e : Event) (s : State) : (emit e s).mem = s.mem := rfl
@[simp] theorem emit_outLog (e : Event) (s : State) : (emit e s).outLog = s.outLog := rfl
@[simp] theorem emit_trace (e : Event) (s : State) : (emit e s).trace = s.trace ++ [e] := rfl
@[simp] theorem emit_answers (e : Event) (s : State) : (emit e s).answers = s.answers := rfl

/-! ### `writePc`: The write of PC, R22. -/

@[simp] theorem writePc_pc (v : Nat) (s : State) : (writePc v s).pc = v := rfl
@[simp] theorem writePc_ac (v : Nat) (s : State) : (writePc v s).ac = s.ac := rfl
@[simp] theorem writePc_ir (v : Nat) (s : State) : (writePc v s).ir = s.ir := rfl
@[simp] theorem writePc_mar (v : Nat) (s : State) : (writePc v s).mar = s.mar := rfl
@[simp] theorem writePc_mbr (v : Nat) (s : State) : (writePc v s).mbr = s.mbr := rfl
@[simp] theorem writePc_z (v : Nat) (s : State) : (writePc v s).z = s.z := rfl
@[simp] theorem writePc_n (v : Nat) (s : State) : (writePc v s).n = s.n := rfl
@[simp] theorem writePc_rs (v : Nat) (s : State) : (writePc v s).rs = s.rs := rfl
@[simp] theorem writePc_cause (v : Nat) (s : State) : (writePc v s).cause = s.cause := rfl
@[simp] theorem writePc_cyc (v : Nat) (s : State) : (writePc v s).cyc = s.cyc := rfl
@[simp] theorem writePc_inReq (v : Nat) (s : State) : (writePc v s).inReq = s.inReq := rfl
@[simp] theorem writePc_progEnd (v : Nat) (s : State) : (writePc v s).progEnd = s.progEnd := rfl
@[simp] theorem writePc_mem (v : Nat) (s : State) : (writePc v s).mem = s.mem := rfl
@[simp] theorem writePc_outLog (v : Nat) (s : State) : (writePc v s).outLog = s.outLog := rfl
@[simp] theorem writePc_trace (v : Nat) (s : State) : (writePc v s).trace = s.trace ++ [.reg .pc v] := rfl
@[simp] theorem writePc_answers (v : Nat) (s : State) : (writePc v s).answers = s.answers := rfl

/-! ### `writeAc`: The write of AC, R21. -/

@[simp] theorem writeAc_pc (v : Int) (s : State) : (writeAc v s).pc = s.pc := rfl
@[simp] theorem writeAc_ac (v : Int) (s : State) : (writeAc v s).ac = v := rfl
@[simp] theorem writeAc_ir (v : Int) (s : State) : (writeAc v s).ir = s.ir := rfl
@[simp] theorem writeAc_mar (v : Int) (s : State) : (writeAc v s).mar = s.mar := rfl
@[simp] theorem writeAc_mbr (v : Int) (s : State) : (writeAc v s).mbr = s.mbr := rfl
@[simp] theorem writeAc_z (v : Int) (s : State) : (writeAc v s).z = s.z := rfl
@[simp] theorem writeAc_n (v : Int) (s : State) : (writeAc v s).n = s.n := rfl
@[simp] theorem writeAc_rs (v : Int) (s : State) : (writeAc v s).rs = s.rs := rfl
@[simp] theorem writeAc_cause (v : Int) (s : State) : (writeAc v s).cause = s.cause := rfl
@[simp] theorem writeAc_cyc (v : Int) (s : State) : (writeAc v s).cyc = s.cyc := rfl
@[simp] theorem writeAc_inReq (v : Int) (s : State) : (writeAc v s).inReq = s.inReq := rfl
@[simp] theorem writeAc_progEnd (v : Int) (s : State) : (writeAc v s).progEnd = s.progEnd := rfl
@[simp] theorem writeAc_mem (v : Int) (s : State) : (writeAc v s).mem = s.mem := rfl
@[simp] theorem writeAc_outLog (v : Int) (s : State) : (writeAc v s).outLog = s.outLog := rfl
@[simp] theorem writeAc_trace (v : Int) (s : State) : (writeAc v s).trace = s.trace ++ [.reg .ac v] := rfl
@[simp] theorem writeAc_answers (v : Int) (s : State) : (writeAc v s).answers = s.answers := rfl

/-! ### `writeIr`: The write of IR, R26. -/

@[simp] theorem writeIr_pc (v : Int) (s : State) : (writeIr v s).pc = s.pc := rfl
@[simp] theorem writeIr_ac (v : Int) (s : State) : (writeIr v s).ac = s.ac := rfl
@[simp] theorem writeIr_ir (v : Int) (s : State) : (writeIr v s).ir = v := rfl
@[simp] theorem writeIr_mar (v : Int) (s : State) : (writeIr v s).mar = s.mar := rfl
@[simp] theorem writeIr_mbr (v : Int) (s : State) : (writeIr v s).mbr = s.mbr := rfl
@[simp] theorem writeIr_z (v : Int) (s : State) : (writeIr v s).z = s.z := rfl
@[simp] theorem writeIr_n (v : Int) (s : State) : (writeIr v s).n = s.n := rfl
@[simp] theorem writeIr_rs (v : Int) (s : State) : (writeIr v s).rs = s.rs := rfl
@[simp] theorem writeIr_cause (v : Int) (s : State) : (writeIr v s).cause = s.cause := rfl
@[simp] theorem writeIr_cyc (v : Int) (s : State) : (writeIr v s).cyc = s.cyc := rfl
@[simp] theorem writeIr_inReq (v : Int) (s : State) : (writeIr v s).inReq = s.inReq := rfl
@[simp] theorem writeIr_progEnd (v : Int) (s : State) : (writeIr v s).progEnd = s.progEnd := rfl
@[simp] theorem writeIr_mem (v : Int) (s : State) : (writeIr v s).mem = s.mem := rfl
@[simp] theorem writeIr_outLog (v : Int) (s : State) : (writeIr v s).outLog = s.outLog := rfl
@[simp] theorem writeIr_trace (v : Int) (s : State) : (writeIr v s).trace = s.trace ++ [.reg .ir v] := rfl
@[simp] theorem writeIr_answers (v : Int) (s : State) : (writeIr v s).answers = s.answers := rfl

/-! ### `writeMar`: The write of MAR, R27. -/

@[simp] theorem writeMar_pc (v : Nat) (s : State) : (writeMar v s).pc = s.pc := rfl
@[simp] theorem writeMar_ac (v : Nat) (s : State) : (writeMar v s).ac = s.ac := rfl
@[simp] theorem writeMar_ir (v : Nat) (s : State) : (writeMar v s).ir = s.ir := rfl
@[simp] theorem writeMar_mar (v : Nat) (s : State) : (writeMar v s).mar = v := rfl
@[simp] theorem writeMar_mbr (v : Nat) (s : State) : (writeMar v s).mbr = s.mbr := rfl
@[simp] theorem writeMar_z (v : Nat) (s : State) : (writeMar v s).z = s.z := rfl
@[simp] theorem writeMar_n (v : Nat) (s : State) : (writeMar v s).n = s.n := rfl
@[simp] theorem writeMar_rs (v : Nat) (s : State) : (writeMar v s).rs = s.rs := rfl
@[simp] theorem writeMar_cause (v : Nat) (s : State) : (writeMar v s).cause = s.cause := rfl
@[simp] theorem writeMar_cyc (v : Nat) (s : State) : (writeMar v s).cyc = s.cyc := rfl
@[simp] theorem writeMar_inReq (v : Nat) (s : State) : (writeMar v s).inReq = s.inReq := rfl
@[simp] theorem writeMar_progEnd (v : Nat) (s : State) : (writeMar v s).progEnd = s.progEnd := rfl
@[simp] theorem writeMar_mem (v : Nat) (s : State) : (writeMar v s).mem = s.mem := rfl
@[simp] theorem writeMar_outLog (v : Nat) (s : State) : (writeMar v s).outLog = s.outLog := rfl
@[simp] theorem writeMar_trace (v : Nat) (s : State) : (writeMar v s).trace = s.trace ++ [.reg .mar v] := rfl
@[simp] theorem writeMar_answers (v : Nat) (s : State) : (writeMar v s).answers = s.answers := rfl

/-! ### `writeMbr`: The write of MBR, R28. -/

@[simp] theorem writeMbr_pc (v : Int) (s : State) : (writeMbr v s).pc = s.pc := rfl
@[simp] theorem writeMbr_ac (v : Int) (s : State) : (writeMbr v s).ac = s.ac := rfl
@[simp] theorem writeMbr_ir (v : Int) (s : State) : (writeMbr v s).ir = s.ir := rfl
@[simp] theorem writeMbr_mar (v : Int) (s : State) : (writeMbr v s).mar = s.mar := rfl
@[simp] theorem writeMbr_mbr (v : Int) (s : State) : (writeMbr v s).mbr = v := rfl
@[simp] theorem writeMbr_z (v : Int) (s : State) : (writeMbr v s).z = s.z := rfl
@[simp] theorem writeMbr_n (v : Int) (s : State) : (writeMbr v s).n = s.n := rfl
@[simp] theorem writeMbr_rs (v : Int) (s : State) : (writeMbr v s).rs = s.rs := rfl
@[simp] theorem writeMbr_cause (v : Int) (s : State) : (writeMbr v s).cause = s.cause := rfl
@[simp] theorem writeMbr_cyc (v : Int) (s : State) : (writeMbr v s).cyc = s.cyc := rfl
@[simp] theorem writeMbr_inReq (v : Int) (s : State) : (writeMbr v s).inReq = s.inReq := rfl
@[simp] theorem writeMbr_progEnd (v : Int) (s : State) : (writeMbr v s).progEnd = s.progEnd := rfl
@[simp] theorem writeMbr_mem (v : Int) (s : State) : (writeMbr v s).mem = s.mem := rfl
@[simp] theorem writeMbr_outLog (v : Int) (s : State) : (writeMbr v s).outLog = s.outLog := rfl
@[simp] theorem writeMbr_trace (v : Int) (s : State) : (writeMbr v s).trace = s.trace ++ [.reg .mbr v] := rfl
@[simp] theorem writeMbr_answers (v : Int) (s : State) : (writeMbr v s).answers = s.answers := rfl

/-! ### `setRunState`: The write of RS, R30. -/

@[simp] theorem setRunState_pc (r : RunState) (s : State) : (setRunState r s).pc = s.pc := rfl
@[simp] theorem setRunState_ac (r : RunState) (s : State) : (setRunState r s).ac = s.ac := rfl
@[simp] theorem setRunState_ir (r : RunState) (s : State) : (setRunState r s).ir = s.ir := rfl
@[simp] theorem setRunState_mar (r : RunState) (s : State) : (setRunState r s).mar = s.mar := rfl
@[simp] theorem setRunState_mbr (r : RunState) (s : State) : (setRunState r s).mbr = s.mbr := rfl
@[simp] theorem setRunState_z (r : RunState) (s : State) : (setRunState r s).z = s.z := rfl
@[simp] theorem setRunState_n (r : RunState) (s : State) : (setRunState r s).n = s.n := rfl
@[simp] theorem setRunState_rs (r : RunState) (s : State) : (setRunState r s).rs = r := rfl
@[simp] theorem setRunState_cause (r : RunState) (s : State) : (setRunState r s).cause = s.cause := rfl
@[simp] theorem setRunState_cyc (r : RunState) (s : State) : (setRunState r s).cyc = s.cyc := rfl
@[simp] theorem setRunState_inReq (r : RunState) (s : State) : (setRunState r s).inReq = s.inReq := rfl
@[simp] theorem setRunState_progEnd (r : RunState) (s : State) : (setRunState r s).progEnd = s.progEnd := rfl
@[simp] theorem setRunState_mem (r : RunState) (s : State) : (setRunState r s).mem = s.mem := rfl
@[simp] theorem setRunState_outLog (r : RunState) (s : State) : (setRunState r s).outLog = s.outLog := rfl
@[simp] theorem setRunState_trace (r : RunState) (s : State) : (setRunState r s).trace = s.trace ++ [.runState r] := rfl
@[simp] theorem setRunState_answers (r : RunState) (s : State) : (setRunState r s).answers = s.answers := rfl

/-! ### `memReadToMbr`: The memory read, R52. -/

@[simp] theorem memReadToMbr_pc (s : State) : (memReadToMbr s).pc = s.pc := rfl
@[simp] theorem memReadToMbr_ac (s : State) : (memReadToMbr s).ac = s.ac := rfl
@[simp] theorem memReadToMbr_ir (s : State) : (memReadToMbr s).ir = s.ir := rfl
@[simp] theorem memReadToMbr_mar (s : State) : (memReadToMbr s).mar = s.mar := rfl
@[simp] theorem memReadToMbr_mbr (s : State) : (memReadToMbr s).mbr = s.mem.read s.mar := rfl
@[simp] theorem memReadToMbr_z (s : State) : (memReadToMbr s).z = s.z := rfl
@[simp] theorem memReadToMbr_n (s : State) : (memReadToMbr s).n = s.n := rfl
@[simp] theorem memReadToMbr_rs (s : State) : (memReadToMbr s).rs = s.rs := rfl
@[simp] theorem memReadToMbr_cause (s : State) : (memReadToMbr s).cause = s.cause := rfl
@[simp] theorem memReadToMbr_cyc (s : State) : (memReadToMbr s).cyc = s.cyc := rfl
@[simp] theorem memReadToMbr_inReq (s : State) : (memReadToMbr s).inReq = s.inReq := rfl
@[simp] theorem memReadToMbr_progEnd (s : State) : (memReadToMbr s).progEnd = s.progEnd := rfl
@[simp] theorem memReadToMbr_mem (s : State) : (memReadToMbr s).mem = s.mem := rfl
@[simp] theorem memReadToMbr_outLog (s : State) : (memReadToMbr s).outLog = s.outLog := rfl
@[simp] theorem memReadToMbr_trace (s : State) : (memReadToMbr s).trace = s.trace ++ [.memRead s.mar] ++ [.reg .mbr (s.mem.read s.mar)] := rfl
@[simp] theorem memReadToMbr_answers (s : State) : (memReadToMbr s).answers = s.answers := rfl

/-! ### `memWriteFromMbr`: The memory write, R53. -/

@[simp] theorem memWriteFromMbr_pc (s : State) : (memWriteFromMbr s).pc = s.pc := rfl
@[simp] theorem memWriteFromMbr_ac (s : State) : (memWriteFromMbr s).ac = s.ac := rfl
@[simp] theorem memWriteFromMbr_ir (s : State) : (memWriteFromMbr s).ir = s.ir := rfl
@[simp] theorem memWriteFromMbr_mar (s : State) : (memWriteFromMbr s).mar = s.mar := rfl
@[simp] theorem memWriteFromMbr_mbr (s : State) : (memWriteFromMbr s).mbr = s.mbr := rfl
@[simp] theorem memWriteFromMbr_z (s : State) : (memWriteFromMbr s).z = s.z := rfl
@[simp] theorem memWriteFromMbr_n (s : State) : (memWriteFromMbr s).n = s.n := rfl
@[simp] theorem memWriteFromMbr_rs (s : State) : (memWriteFromMbr s).rs = s.rs := rfl
@[simp] theorem memWriteFromMbr_cause (s : State) : (memWriteFromMbr s).cause = s.cause := rfl
@[simp] theorem memWriteFromMbr_cyc (s : State) : (memWriteFromMbr s).cyc = s.cyc := rfl
@[simp] theorem memWriteFromMbr_inReq (s : State) : (memWriteFromMbr s).inReq = s.inReq := rfl
@[simp] theorem memWriteFromMbr_progEnd (s : State) : (memWriteFromMbr s).progEnd = s.progEnd := rfl
@[simp] theorem memWriteFromMbr_mem (s : State) : (memWriteFromMbr s).mem = s.mem.write s.mar s.mbr := rfl
@[simp] theorem memWriteFromMbr_outLog (s : State) : (memWriteFromMbr s).outLog = s.outLog := rfl
@[simp] theorem memWriteFromMbr_trace (s : State) : (memWriteFromMbr s).trace = s.trace ++ [.memWritten s.mar s.mbr] := rfl
@[simp] theorem memWriteFromMbr_answers (s : State) : (memWriteFromMbr s).answers = s.answers := rfl

/-! ### `outputPut`: The output port, R213. -/

@[simp] theorem outputPut_pc (v : Int) (s : State) : (outputPut v s).pc = s.pc := rfl
@[simp] theorem outputPut_ac (v : Int) (s : State) : (outputPut v s).ac = s.ac := rfl
@[simp] theorem outputPut_ir (v : Int) (s : State) : (outputPut v s).ir = s.ir := rfl
@[simp] theorem outputPut_mar (v : Int) (s : State) : (outputPut v s).mar = s.mar := rfl
@[simp] theorem outputPut_mbr (v : Int) (s : State) : (outputPut v s).mbr = s.mbr := rfl
@[simp] theorem outputPut_z (v : Int) (s : State) : (outputPut v s).z = s.z := rfl
@[simp] theorem outputPut_n (v : Int) (s : State) : (outputPut v s).n = s.n := rfl
@[simp] theorem outputPut_rs (v : Int) (s : State) : (outputPut v s).rs = s.rs := rfl
@[simp] theorem outputPut_cause (v : Int) (s : State) : (outputPut v s).cause = s.cause := rfl
@[simp] theorem outputPut_cyc (v : Int) (s : State) : (outputPut v s).cyc = s.cyc := rfl
@[simp] theorem outputPut_inReq (v : Int) (s : State) : (outputPut v s).inReq = s.inReq := rfl
@[simp] theorem outputPut_progEnd (v : Int) (s : State) : (outputPut v s).progEnd = s.progEnd := rfl
@[simp] theorem outputPut_mem (v : Int) (s : State) : (outputPut v s).mem = s.mem := rfl
@[simp] theorem outputPut_outLog (v : Int) (s : State) : (outputPut v s).outLog = s.outLog ++ [v] := rfl
@[simp] theorem outputPut_trace (v : Int) (s : State) : (outputPut v s).trace = s.trace ++ [.output v] := rfl
@[simp] theorem outputPut_answers (v : Int) (s : State) : (outputPut v s).answers = s.answers := rfl

/-! ### `countCycle`: The cycle counter, R32. -/

@[simp] theorem countCycle_pc (s : State) : (countCycle s).pc = s.pc := rfl
@[simp] theorem countCycle_ac (s : State) : (countCycle s).ac = s.ac := rfl
@[simp] theorem countCycle_ir (s : State) : (countCycle s).ir = s.ir := rfl
@[simp] theorem countCycle_mar (s : State) : (countCycle s).mar = s.mar := rfl
@[simp] theorem countCycle_mbr (s : State) : (countCycle s).mbr = s.mbr := rfl
@[simp] theorem countCycle_z (s : State) : (countCycle s).z = s.z := rfl
@[simp] theorem countCycle_n (s : State) : (countCycle s).n = s.n := rfl
@[simp] theorem countCycle_rs (s : State) : (countCycle s).rs = s.rs := rfl
@[simp] theorem countCycle_cause (s : State) : (countCycle s).cause = s.cause := rfl
@[simp] theorem countCycle_cyc (s : State) : (countCycle s).cyc = s.cyc + 1 := rfl
@[simp] theorem countCycle_inReq (s : State) : (countCycle s).inReq = s.inReq := rfl
@[simp] theorem countCycle_progEnd (s : State) : (countCycle s).progEnd = s.progEnd := rfl
@[simp] theorem countCycle_mem (s : State) : (countCycle s).mem = s.mem := rfl
@[simp] theorem countCycle_outLog (s : State) : (countCycle s).outLog = s.outLog := rfl
@[simp] theorem countCycle_trace (s : State) : (countCycle s).trace = s.trace ++ [.cycle (s.cyc + 1)] := rfl
@[simp] theorem countCycle_answers (s : State) : (countCycle s).answers = s.answers := rfl

/-! ### `setFlags`: The flag unit, R140. -/

@[simp] theorem setFlags_pc (s : State) : (setFlags s).pc = s.pc := rfl
@[simp] theorem setFlags_ac (s : State) : (setFlags s).ac = s.ac := rfl
@[simp] theorem setFlags_ir (s : State) : (setFlags s).ir = s.ir := rfl
@[simp] theorem setFlags_mar (s : State) : (setFlags s).mar = s.mar := rfl
@[simp] theorem setFlags_mbr (s : State) : (setFlags s).mbr = s.mbr := rfl
@[simp] theorem setFlags_z (s : State) : (setFlags s).z = zeroFlag s.ac := rfl
@[simp] theorem setFlags_n (s : State) : (setFlags s).n = negativeFlag s.ac := rfl
@[simp] theorem setFlags_rs (s : State) : (setFlags s).rs = s.rs := rfl
@[simp] theorem setFlags_cause (s : State) : (setFlags s).cause = s.cause := rfl
@[simp] theorem setFlags_cyc (s : State) : (setFlags s).cyc = s.cyc := rfl
@[simp] theorem setFlags_inReq (s : State) : (setFlags s).inReq = s.inReq := rfl
@[simp] theorem setFlags_progEnd (s : State) : (setFlags s).progEnd = s.progEnd := rfl
@[simp] theorem setFlags_mem (s : State) : (setFlags s).mem = s.mem := rfl
@[simp] theorem setFlags_outLog (s : State) : (setFlags s).outLog = s.outLog := rfl
@[simp] theorem setFlags_trace (s : State) : (setFlags s).trace = s.trace ++ [.flags (zeroFlag s.ac) (negativeFlag s.ac)] := rfl
@[simp] theorem setFlags_answers (s : State) : (setFlags s).answers = s.answers := rfl

/-! ### `supplyAnswers`: The host's answers, R210. -/

@[simp] theorem supplyAnswers_pc (xs : List InputAnswer) (s : State) : (supplyAnswers xs s).pc = s.pc := rfl
@[simp] theorem supplyAnswers_ac (xs : List InputAnswer) (s : State) : (supplyAnswers xs s).ac = s.ac := rfl
@[simp] theorem supplyAnswers_ir (xs : List InputAnswer) (s : State) : (supplyAnswers xs s).ir = s.ir := rfl
@[simp] theorem supplyAnswers_mar (xs : List InputAnswer) (s : State) : (supplyAnswers xs s).mar = s.mar := rfl
@[simp] theorem supplyAnswers_mbr (xs : List InputAnswer) (s : State) : (supplyAnswers xs s).mbr = s.mbr := rfl
@[simp] theorem supplyAnswers_z (xs : List InputAnswer) (s : State) : (supplyAnswers xs s).z = s.z := rfl
@[simp] theorem supplyAnswers_n (xs : List InputAnswer) (s : State) : (supplyAnswers xs s).n = s.n := rfl
@[simp] theorem supplyAnswers_rs (xs : List InputAnswer) (s : State) : (supplyAnswers xs s).rs = s.rs := rfl
@[simp] theorem supplyAnswers_cause (xs : List InputAnswer) (s : State) : (supplyAnswers xs s).cause = s.cause := rfl
@[simp] theorem supplyAnswers_cyc (xs : List InputAnswer) (s : State) : (supplyAnswers xs s).cyc = s.cyc := rfl
@[simp] theorem supplyAnswers_inReq (xs : List InputAnswer) (s : State) : (supplyAnswers xs s).inReq = s.inReq := rfl
@[simp] theorem supplyAnswers_progEnd (xs : List InputAnswer) (s : State) : (supplyAnswers xs s).progEnd = s.progEnd := rfl
@[simp] theorem supplyAnswers_mem (xs : List InputAnswer) (s : State) : (supplyAnswers xs s).mem = s.mem := rfl
@[simp] theorem supplyAnswers_outLog (xs : List InputAnswer) (s : State) : (supplyAnswers xs s).outLog = s.outLog := rfl
@[simp] theorem supplyAnswers_trace (xs : List InputAnswer) (s : State) : (supplyAnswers xs s).trace = s.trace := rfl
@[simp] theorem supplyAnswers_answers (xs : List InputAnswer) (s : State) : (supplyAnswers xs s).answers = s.answers ++ xs := rfl

end Sys2Proof.Machine
end

