-- ==== Sys2Proof/Laws/Ops.lean ====
section
/-! SUPPORT. One lemma per shared operation: everything it does to the state. -/

namespace Sys2Proof.Machine

/-- The operand fetch of ADD, SUB and LOAD. -/
theorem readOperand_eq (a : Nat) (s : State) :
    readOperand a s =
      { s with
        mar := a
        mbr := s.mem.read a
        trace := s.trace ++ [.reg .mar a, .memRead a, .reg .mbr (s.mem.read a)] } := by
  simp [readOperand, memReadToMbr, writeMbr, writeMar, emit]

/-- The operand store of STORE. -/
theorem storeOperand_eq (a : Nat) (s : State) :
    storeOperand a s =
      { s with
        mar := a
        mbr := s.ac
        mem := s.mem.write a s.ac
        trace := s.trace ++ [.reg .mar a, .reg .mbr s.ac, .memWritten a s.ac] } := by
  simp [storeOperand, memWriteFromMbr, writeMbr, writeMar, emit]

theorem zeroFlag_eq (v : Int) : zeroFlag v = decide (v = 0) := rfl

theorem negativeFlag_eq (v : Int) : negativeFlag v = decide (v < 0) := rfl

/-- A write of AC, with its flags. -/
theorem loadAc_eq (v : Int) (s : State) :
    loadAc v s =
      { s with
        ac := v
        z := decide (v = 0)
        n := decide (v < 0)
        trace := s.trace ++ [.reg .ac v, .flags (decide (v = 0)) (decide (v < 0))] } := by
  simp [loadAc, setFlags, writeAc, emit, zeroFlag_eq, negativeFlag_eq]

/-- The off-end check where it fires. -/
theorem offEndCheck_fires {s : State} (hr : s.rs = .running) (hp : s.progEnd ≤ s.pc) :
    offEndCheck s =
      { s with
        rs := .halted
        cause := .outOfProgram
        trace := s.trace ++ [.warning .outOfProgram s.pc, .runState .halted] } := by
  simp [offEndCheck, hr, hp, emit]

/-- The off-end check where it does not fire. -/
theorem offEndCheck_skips {s : State} (h : ¬ (s.rs = .running ∧ s.progEnd ≤ s.pc)) :
    offEndCheck s = s := by
  simp [offEndCheck, h]

/-- What an end of cycle can do: count the cycle, after an off-end halt or none. -/
theorem endCycle_cases (s : State) :
    (s.rs = .running ∧ s.progEnd ≤ s.pc ∧
      endCycle s =
        { s with
          rs := .halted
          cause := .outOfProgram
          cyc := s.cyc + 1
          trace := s.trace ++
            [.warning .outOfProgram s.pc, .runState .halted, .cycle (s.cyc + 1)] }) ∨
    (¬ (s.rs = .running ∧ s.progEnd ≤ s.pc) ∧
      endCycle s =
        { s with cyc := s.cyc + 1, trace := s.trace ++ [.cycle (s.cyc + 1)] }) := by
  by_cases h : s.rs = .running ∧ s.progEnd ≤ s.pc
  · refine .inl ⟨h.1, h.2, ?_⟩
    rw [endCycle, offEndCheck_fires h.1 h.2]
    simp [countCycle, emit]
  · refine .inr ⟨h, ?_⟩
    rw [endCycle, offEndCheck_skips h]
    simp [countCycle, emit]

/-- The end of a cycle does not touch the answers to come. -/
theorem endCycle_answers (xs : List InputAnswer) (s : State) :
    endCycle { s with answers := xs } = { endCycle s with answers := xs } := by
  simp only [endCycle, offEndCheck]
  split <;> rfl

/-- The entry into ERRORED. -/
theorem raiseFault_eq (c : Cause) (ia : Nat) (v : Option Int) (s : State) :
    raiseFault c ia v s =
      { s with
        rs := .errored
        cause := c
        cyc := s.cyc + 1
        trace := s.trace ++
          [.error c ia s.ir v, .runState .errored, .cycle (s.cyc + 1)] } := by
  simp [raiseFault, endCycle, offEndCheck, countCycle, emit]

theorem commitAc_inRange {r : Int} (h : InRange r) (s : State) : commitAc r s = loadAc r s := by
  rw [commitAc, if_pos h]

theorem commitAc_overflow {r : Int} (h : ¬ InRange r) (s : State) :
    commitAc r s = raiseFault .overflow (instrAddr s) (some r) s := by
  rw [commitAc, if_neg h]

theorem checkedAddress_of_lt {a : Nat} (h : a < Config.memSize) (t : State) :
    checkedAddress a t = .next t := by
  rw [checkedAddress, if_pos h]

theorem checkedAddress_of_ge {a : Nat} (h : Config.memSize ≤ a) (t : State) :
    checkedAddress a t = .fault (.addressOutsideMemory a) := by
  rw [checkedAddress, if_neg (Nat.not_lt.mpr h)]

/-- An instruction that uses an address has a next state only at an address of the machine. -/
theorem checkedAddress_next {a : Nat} {t u : State} (h : checkedAddress a t = .next u) :
    a < Config.memSize ∧ u = t := by
  unfold checkedAddress at h
  split at h
  · cases h
    exact ⟨‹_›, rfl⟩
  · cases h

/-- The completion of an IN with an answer in range. -/
theorem completeInput_accepted {v : Int} (h : InRange v) (s : State) :
    completeInput (.answer v) s = endCycle (loadAc v { s with inReq := false }) := by
  simp only [completeInput, if_pos h]

/-- The completion of an IN with an answer out of range. -/
theorem completeInput_rejected {v : Int} (h : ¬ InRange v) (s : State) :
    completeInput (.answer v) s =
      raiseFault .overflow (s.pc - 1) (some v) { s with inReq := false } := by
  simp only [completeInput, if_neg h, instrAddr]

/-- The completion of an IN with a cancellation. -/
theorem completeInput_cancelled (s : State) :
    completeInput .cancel s =
      raiseFault .inputCancelled (s.pc - 1) none { s with inReq := false } := rfl

/-- The start of a cycle. -/
theorem startCycle_cases (s : State) :
    (s.rs = .ready ∧
      startCycle s = { s with rs := .running, trace := s.trace ++ [.runState .running] }) ∨
    (s.rs ≠ .ready ∧ startCycle s = s) := by
  by_cases h : s.rs = .ready
  · exact .inl ⟨h, by simp [startCycle, h, setRunState, emit]⟩
  · exact .inr ⟨h, by simp [startCycle, h]⟩

/-- Fetch and decode: the state the execute phase starts in. -/
theorem fetchDecode_eq (s : State) :
    fetchDecode s =
      { s with
        pc := s.pc + 1
        mar := s.pc
        mbr := s.mem.read s.pc
        ir := s.mem.read s.pc
        trace := s.trace ++
          [.reg .mar s.pc, .memRead s.pc, .reg .mbr (s.mem.read s.pc), .reg .ir (s.mem.read s.pc),
            .reg .pc ((s.pc + 1 : Nat) : Int), .executed s.pc] } := by
  simp [fetchDecode, fetch, memReadToMbr, writeMbr, writeMar, writeIr, writePc, emit]

/-- What follows the execute phase of a cycle that did not end in it. -/
theorem afterExecute_ends {s : State} (hr : s.rs ≠ .errored) (hi : s.inReq = false) :
    afterExecute s = endCycle s := by
  simp [afterExecute, hr, hi]

/-- What follows the execute phase of a cycle that ended in it, or waits. -/
theorem afterExecute_skips {s : State} (h : s.rs = .errored ∨ s.inReq = true) :
    afterExecute s = s := by
  rw [afterExecute, if_pos h]

/-- What follows the execute phase: nothing, where the cycle ended in it or waits; otherwise the end
of the cycle. -/
theorem afterExecute_cases (u : State) :
    ((u.rs = .errored ∨ u.inReq = true) ∧ afterExecute u = u) ∨
    (u.rs = .running ∧ u.inReq = false ∧ u.progEnd ≤ u.pc ∧
      afterExecute u =
        { u with
          rs := .halted
          cause := .outOfProgram
          cyc := u.cyc + 1
          trace := u.trace ++
            [.warning .outOfProgram u.pc, .runState .halted, .cycle (u.cyc + 1)] }) ∨
    (u.rs ≠ .errored ∧ u.inReq = false ∧ ¬ (u.rs = .running ∧ u.progEnd ≤ u.pc) ∧
      afterExecute u =
        { u with cyc := u.cyc + 1, trace := u.trace ++ [.cycle (u.cyc + 1)] }) := by
  by_cases h : u.rs = .errored ∨ u.inReq = true
  · exact .inl ⟨h, afterExecute_skips h⟩
  · have hr : u.rs ≠ .errored := fun hr => h (.inl hr)
    have hi : u.inReq = false := by simpa using fun hi => h (.inr hi)
    rw [afterExecute_ends hr hi]
    rcases endCycle_cases u with ⟨h1, h2, he⟩ | ⟨h1, he⟩
    · exact .inr (.inl ⟨h1, hi, h2, he⟩)
    · exact .inr (.inr ⟨hr, hi, h1, he⟩)

end Sys2Proof.Machine
end

