-- ==== Sys2Proof/Laws/Exec.lean ====
section
/-! SUPPORT. One lemma per instruction: everything it can do where it has a next state. -/

namespace Sys2Proof.Machine

variable {a : Nat} {s t : State}

theorem execHalt_cases (h : exec (.halt a) s = .next t) : t = setRunState .halted s := by
  simpa [exec, execHalt] using h.symm

theorem execAdd_cases (h : exec (.add a) s = .next t) :
    a < Config.memSize ∧ t = commitAc (s.ac + s.mem.read a) (readOperand a s) := by
  obtain ⟨ha, rfl⟩ := checkedAddress_next h
  exact ⟨ha, by simp [readOperand_eq, aluAdd]⟩

theorem execSub_cases (h : exec (.sub a) s = .next t) :
    a < Config.memSize ∧ t = commitAc (s.ac - s.mem.read a) (readOperand a s) := by
  obtain ⟨ha, rfl⟩ := checkedAddress_next h
  exact ⟨ha, by simp [readOperand_eq, aluSub]⟩

theorem execStore_cases (h : exec (.store a) s = .next t) :
    a < Config.memSize ∧ t = storeOperand a s :=
  checkedAddress_next h

theorem execNop_cases (h : exec (.nop a) s = .next t) : t = s := by
  simpa [exec, execNop] using h.symm

theorem execLoad_cases (h : exec (.load a) s = .next t) :
    a < Config.memSize ∧ t = loadAc (s.mem.read a) (readOperand a s) := by
  obtain ⟨ha, rfl⟩ := checkedAddress_next h
  exact ⟨ha, by simp [readOperand_eq]⟩

theorem execBr_cases (h : exec (.br a) s = .next t) : a < Config.memSize ∧ t = writePc a s :=
  checkedAddress_next h

theorem execBrz_cases (h : exec (.brz a) s = .next t) :
    a < Config.memSize ∧ t = if s.ac = 0 then writePc a s else s :=
  checkedAddress_next h

theorem execBrp_cases (h : exec (.brp a) s = .next t) :
    a < Config.memSize ∧ t = if 0 ≤ s.ac then writePc a s else s :=
  checkedAddress_next h

theorem execIn_cases (h : exec .inp s = .next t) : t = { s with inReq := true } := by
  simpa [exec, execIn] using h.symm

theorem execOut_cases (h : exec .out s = .next t) : t = outputPut s.ac s := by
  simpa [exec, execOut] using h.symm

/-- Everything an instruction can do where it has a next state, as the state it leaves. -/
theorem exec_cases {i : Instr} {s u : State} (h : exec i s = .next u) :
    (∃ a, i = .halt a ∧
      u = { s with rs := .halted, trace := s.trace ++ [.runState .halted] }) ∨
    (∃ a, i = .nop a ∧ u = s) ∨
    (∃ a, i = .store a ∧ a < 100 ∧
      u = { s with
        mar := a
        mbr := s.ac
        mem := s.mem.write a s.ac
        trace := s.trace ++ [.reg .mar a, .reg .mbr s.ac, .memWritten a s.ac] }) ∨
    (∃ a r, a < 100 ∧
      (i = .load a ∧ r = s.mem.read a ∨ i = .add a ∧ r = s.ac + s.mem.read a ∧ InRange r ∨
        i = .sub a ∧ r = s.ac - s.mem.read a ∧ InRange r) ∧
      u = { s with
        mar := a
        mbr := s.mem.read a
        ac := r
        z := decide (r = 0)
        n := decide (r < 0)
        trace := s.trace ++ operandEvents a s ++ acEvents r }) ∨
    (∃ a r, a < 100 ∧
      (i = .add a ∧ r = s.ac + s.mem.read a ∨ i = .sub a ∧ r = s.ac - s.mem.read a) ∧
      ¬ InRange r ∧
      u = { s with
        mar := a
        mbr := s.mem.read a
        rs := .errored
        cause := .overflow
        cyc := s.cyc + 1
        trace := s.trace ++ operandEvents a s ++
          [.error .overflow (s.pc - 1) s.ir (some r), .runState .errored,
            .cycle (s.cyc + 1)] }) ∨
    (∃ a, a < 100 ∧ (i = .br a ∨ i = .brz a ∧ s.ac = 0 ∨ i = .brp a ∧ 0 ≤ s.ac) ∧
      u = { s with pc := a, trace := s.trace ++ [.reg .pc a] }) ∨
    (∃ a, a < 100 ∧ (i = .brz a ∧ s.ac ≠ 0 ∨ i = .brp a ∧ ¬ 0 ≤ s.ac) ∧ u = s) ∨
    (i = .inp ∧ u = { s with inReq := true }) ∨
    (i = .out ∧
      u = { s with outLog := s.outLog ++ [s.ac], trace := s.trace ++ [.output s.ac] }) := by
  cases i with
  | halt a => exact .inl ⟨a, rfl, execHalt_cases h⟩
  | nop a => exact .inr (.inl ⟨a, rfl, execNop_cases h⟩)
  | store a =>
    obtain ⟨ha, rfl⟩ := execStore_cases h
    exact .inr (.inr (.inl ⟨a, rfl, ha, storeOperand_eq ..⟩))
  | load a =>
    obtain ⟨ha, rfl⟩ := execLoad_cases h
    refine .inr (.inr (.inr (.inl ⟨a, _, ha, .inl ⟨rfl, rfl⟩, ?_⟩)))
    simp [loadAc_eq, readOperand_eq, operandEvents, acEvents]
  | add a =>
    obtain ⟨ha, rfl⟩ := execAdd_cases h
    by_cases hr : InRange (s.ac + s.mem.read a)
    · refine .inr (.inr (.inr (.inl ⟨a, _, ha, .inr (.inl ⟨rfl, rfl, hr⟩), ?_⟩)))
      rw [commitAc_inRange hr]
      simp [loadAc_eq, readOperand_eq, operandEvents, acEvents]
    · refine .inr (.inr (.inr (.inr (.inl ⟨a, _, ha, .inl ⟨rfl, rfl⟩, hr, ?_⟩))))
      rw [commitAc_overflow hr]
      simp [raiseFault_eq, readOperand_eq, operandEvents, instrAddr]
  | sub a =>
    obtain ⟨ha, rfl⟩ := execSub_cases h
    by_cases hr : InRange (s.ac - s.mem.read a)
    · refine .inr (.inr (.inr (.inl ⟨a, _, ha, .inr (.inr ⟨rfl, rfl, hr⟩), ?_⟩)))
      rw [commitAc_inRange hr]
      simp [loadAc_eq, readOperand_eq, operandEvents, acEvents]
    · refine .inr (.inr (.inr (.inr (.inl ⟨a, _, ha, .inr ⟨rfl, rfl⟩, hr, ?_⟩))))
      rw [commitAc_overflow hr]
      simp [raiseFault_eq, readOperand_eq, operandEvents, instrAddr]
  | br a =>
    obtain ⟨ha, rfl⟩ := execBr_cases h
    exact .inr (.inr (.inr (.inr (.inr (.inl ⟨a, ha, .inl rfl, rfl⟩)))))
  | brz a =>
    obtain ⟨ha, rfl⟩ := execBrz_cases h
    by_cases hz : s.ac = 0
    · rw [if_pos hz]
      exact .inr (.inr (.inr (.inr (.inr (.inl ⟨a, ha, .inr (.inl ⟨rfl, hz⟩), rfl⟩)))))
    · rw [if_neg hz]
      exact .inr (.inr (.inr (.inr (.inr (.inr (.inl ⟨a, ha, .inl ⟨rfl, hz⟩, rfl⟩))))))
  | brp a =>
    obtain ⟨ha, rfl⟩ := execBrp_cases h
    by_cases hz : 0 ≤ s.ac
    · rw [if_pos hz]
      exact .inr (.inr (.inr (.inr (.inr (.inl ⟨a, ha, .inr (.inr ⟨rfl, hz⟩), rfl⟩)))))
    · rw [if_neg hz]
      exact .inr (.inr (.inr (.inr (.inr (.inr (.inl ⟨a, ha, .inr ⟨rfl, hz⟩, rfl⟩))))))
  | inp => exact .inr (.inr (.inr (.inr (.inr (.inr (.inr (.inl ⟨rfl, execIn_cases h⟩)))))))
  | out => exact .inr (.inr (.inr (.inr (.inr (.inr (.inr (.inr ⟨rfl, execOut_cases h⟩)))))))

/-- Every instruction has a next state: only a term that is no instruction stops (R84). -/
theorem exec_of_wellFormed {i : Instr} (hi : i.wellFormed = true) (s : State) :
    ∃ t, exec i s = .next t := by
  cases i <;>
    first
    | exact ⟨_, rfl⟩
    | exact ⟨_, checkedAddress_of_lt (by simpa [Instr.wellFormed, Instr.operand] using hi) _⟩

end Sys2Proof.Machine
end

