-- ==== Sys2Proof/Laws/Step.lean ====
section
/-! SUPPORT. Everything a step can do. -/

namespace Sys2Proof.Machine

variable {s t : State}

/-- What decode, the execute phase and the end of the cycle can do. -/
theorem execute_cases (h : execute s = .next t) :
    (∃ a, decode s.ir = .unknown a ∧ t = unknownOpcode s) ∨
    (∃ i u, decode s.ir = .known i ∧ exec i s = .next u ∧ t = afterExecute u) := by
  cases hd : decode s.ir with
  | unknown a => exact .inl ⟨a, rfl, by simpa [execute, hd] using h.symm⟩
  | known i =>
    cases he : exec i s with
    | next u =>
      simp only [execute, hd, he, Host.Outcome.next.injEq] at h
      exact .inr ⟨i, u, rfl, he, h.symm⟩
    | fault f => simp [execute, hd, he] at h
    | refused r => simp [execute, hd, he] at h

theorem startCycle_pc (s : State) : (startCycle s).pc = s.pc := by
  rcases startCycle_cases s with ⟨-, h⟩ | ⟨-, h⟩ <;> rw [h]

theorem startCycle_mem (s : State) : (startCycle s).mem = s.mem := by
  rcases startCycle_cases s with ⟨-, h⟩ | ⟨-, h⟩ <;> rw [h]

/-- The word decode reads in a cycle is the one at PC. -/
theorem fetchDecode_startCycle_ir (s : State) :
    (fetchDecode (startCycle s)).ir = s.mem.read s.pc := by
  rw [fetchDecode_eq, ← startCycle_pc s, ← startCycle_mem s]

/-- The state the execute phase of an enabled cycle starts in. -/
theorem fetchDecode_startCycle (h : cycleEnabled s) :
    fetchDecode (startCycle s) =
      { s with
        pc := s.pc + 1
        mar := s.pc
        mbr := s.mem.read s.pc
        ir := s.mem.read s.pc
        rs := .running
        trace := s.trace ++ startEvents s ++ fetchEvents s } := by
  rw [fetchDecode_eq]
  obtain ⟨hr | hr, hi⟩ := h <;> rcases startCycle_cases s with ⟨h1, h⟩ | ⟨h1, h⟩ <;>
    rw [h] <;> simp_all [startEvents, fetchEvents]

/-- What a cycle can do. -/
theorem cycle_cases (h : cycle s = .next t) :
    (Config.memSize ≤ s.pc ∧ t = boundsFault (startCycle s)) ∨
    (s.pc < Config.memSize ∧ ∃ a, decode (s.mem.read s.pc) = .unknown a ∧
      t = unknownOpcode (fetchDecode (startCycle s))) ∨
    (s.pc < Config.memSize ∧ ∃ i u, decode (s.mem.read s.pc) = .known i ∧
      exec i (fetchDecode (startCycle s)) = .next u ∧ t = afterExecute u) := by
  unfold cycle at h
  split at h
  · next hpc =>
    have hc := execute_cases h
    rw [fetchDecode_startCycle_ir] at hc
    rcases hc with ⟨a, hd, ht⟩ | ⟨i, u, hd, he, ht⟩
    · exact .inr (.inl ⟨hpc, a, hd, ht⟩)
    · exact .inr (.inr ⟨hpc, i, u, hd, he, ht⟩)
  · next hpc => exact .inl ⟨Nat.not_lt.mp hpc, by simpa using h.symm⟩

/-- Where the host's cycle has a next state, a cycle is enabled (R110). -/
theorem cycleStep_cases (h : cycleStep s = .next t) : cycleEnabled s ∧ cycle s = .next t := by
  unfold cycleStep at h
  split at h
  · cases h
  · split at h <;> simp_all [cycleEnabled]

/-- What a step can do: complete a waiting IN, or run an enabled cycle. -/
theorem step_cases (h : step s = .next t) :
    (s.inReq = true ∧ ∃ x rest, s.answers = x :: rest ∧
      t = completeInput x { s with answers := rest }) ∨
    (cycleEnabled s ∧ cycle s = .next t) := by
  unfold step at h
  split at h
  · next hi =>
    unfold resumeInput at h
    split at h
    · cases h
    · next x rest hx => exact .inl ⟨hi, x, rest, hx, by simpa using h.symm⟩
  · exact .inr (cycleStep_cases h)

theorem step_of_cycleEnabled (h : cycleEnabled s) : step s = cycle s := by
  obtain ⟨hr | hr, hi⟩ := h <;> simp [step, cycleStep, hr, hi]

/-- An enabled cycle has a next state: no word and no address stops it (R83, R112). -/
theorem cycle_total (s : State) : ∃ t, cycle s = .next t := by
  unfold cycle
  split
  · unfold execute
    split
    · exact ⟨_, rfl⟩
    · next i hd =>
      obtain ⟨u, hu⟩ := exec_of_wellFormed (decode_wellFormed hd) (fetchDecode (startCycle s))
      exact ⟨afterExecute u, by simp only [hu]⟩
  · exact ⟨_, rfl⟩

/-- What the completion of an IN can do, R212. -/
theorem completeInput_cases (x : InputAnswer) (s : State) :
    (x = .cancel ∧ completeInput x s =
      raiseFault .inputCancelled (s.pc - 1) none { s with inReq := false }) ∨
    (∃ v, x = .answer v ∧ InRange v ∧
      completeInput x s = endCycle (loadAc v { s with inReq := false })) ∨
    (∃ v, x = .answer v ∧ ¬ InRange v ∧
      completeInput x s = raiseFault .overflow (s.pc - 1) (some v) { s with inReq := false }) := by
  cases x with
  | cancel => exact .inl ⟨rfl, completeInput_cancelled s⟩
  | answer v =>
    by_cases hv : InRange v
    · exact .inr (.inl ⟨v, rfl, hv, completeInput_accepted hv s⟩)
    · exact .inr (.inr ⟨v, rfl, hv, completeInput_rejected hv s⟩)

/-- Everything an enabled cycle can do, as the state it leaves; `exec_cases` and
`afterExecute_cases` go on from the last case. -/
theorem cycle_outcomes (h : cycleEnabled s) (hc : cycle s = .next t) :
    (100 ≤ s.pc ∧
      t = { s with
        rs := .errored
        cause := .bounds
        cyc := s.cyc + 1
        trace := s.trace ++ startEvents s ++
          [.error .bounds s.pc s.ir (some (s.pc : Int)), .runState .errored,
            .cycle (s.cyc + 1)] }) ∨
    (s.pc < 100 ∧ ∃ a, decode (s.mem.read s.pc) = .unknown a ∧
      t = { s with
        pc := s.pc + 1
        mar := s.pc
        mbr := s.mem.read s.pc
        ir := s.mem.read s.pc
        rs := .errored
        cause := .unknownOpcode
        cyc := s.cyc + 1
        trace := s.trace ++ startEvents s ++ fetchEvents s ++
          [.error .unknownOpcode s.pc (s.mem.read s.pc) (some (s.mem.read s.pc)),
            .runState .errored, .cycle (s.cyc + 1)] }) ∨
    (s.pc < 100 ∧ ∃ i u, decode (s.mem.read s.pc) = .known i ∧
      exec i
        { s with
          pc := s.pc + 1
          mar := s.pc
          mbr := s.mem.read s.pc
          ir := s.mem.read s.pc
          rs := .running
          trace := s.trace ++ startEvents s ++ fetchEvents s } = .next u ∧
      t = afterExecute u) := by
  rcases cycle_cases hc with ⟨hp, rfl⟩ | ⟨hp, a, hd, rfl⟩ | ⟨hp, i, u, hd, hu, rfl⟩
  · refine .inl ⟨by simpa using hp, ?_⟩
    rw [boundsFault, raiseFault_eq]
    obtain ⟨hr | hr, hi⟩ := h <;> rcases startCycle_cases s with ⟨h1, h⟩ | ⟨h1, h⟩ <;>
      rw [h] <;> simp_all [startEvents]
  · refine .inr (.inl ⟨by simpa using hp, a, hd, ?_⟩)
    rw [fetchDecode_startCycle h, unknownOpcode, raiseFault_eq]
    simp [instrAddr]
  · rw [fetchDecode_startCycle h] at hu
    exact .inr (.inr ⟨by simpa using hp, i, u, hd, hu, rfl⟩)

/-- Everything the completion of an IN can do, as the state it leaves, R212. -/
theorem completeInput_outcomes (x : InputAnswer) (s : State) :
    (x = .cancel ∧
      completeInput x s =
        { s with
          inReq := false
          rs := .errored
          cause := .inputCancelled
          cyc := s.cyc + 1
          trace := s.trace ++
            [.error .inputCancelled (s.pc - 1) s.ir none, .runState .errored,
              .cycle (s.cyc + 1)] }) ∨
    (∃ v, x = .answer v ∧ ¬ InRange v ∧
      completeInput x s =
        { s with
          inReq := false
          rs := .errored
          cause := .overflow
          cyc := s.cyc + 1
          trace := s.trace ++
            [.error .overflow (s.pc - 1) s.ir (some v), .runState .errored,
              .cycle (s.cyc + 1)] }) ∨
    (∃ v, x = .answer v ∧ InRange v ∧ s.rs = .running ∧ s.progEnd ≤ s.pc ∧
      completeInput x s =
        { s with
          inReq := false
          ac := v
          z := decide (v = 0)
          n := decide (v < 0)
          rs := .halted
          cause := .outOfProgram
          cyc := s.cyc + 1
          trace := s.trace ++ acEvents v ++
            [.warning .outOfProgram s.pc, .runState .halted, .cycle (s.cyc + 1)] }) ∨
    (∃ v, x = .answer v ∧ InRange v ∧ ¬ (s.rs = .running ∧ s.progEnd ≤ s.pc) ∧
      completeInput x s =
        { s with
          inReq := false
          ac := v
          z := decide (v = 0)
          n := decide (v < 0)
          cyc := s.cyc + 1
          trace := s.trace ++ acEvents v ++ [.cycle (s.cyc + 1)] }) := by
  rcases completeInput_cases x s with ⟨h1, h⟩ | ⟨v, h1, h2, h⟩ | ⟨v, h1, h2, h⟩ <;> rw [h]
  · exact .inl ⟨h1, by rw [raiseFault_eq]⟩
  · rcases endCycle_cases (loadAc v { s with inReq := false }) with ⟨h3, h4, h⟩ | ⟨h3, h⟩ <;>
      rw [h]
    · rw [loadAc_eq] at h3 h4
      exact .inr (.inr (.inl ⟨v, h1, h2, h3, h4, by simp [loadAc_eq, acEvents]⟩))
    · rw [loadAc_eq] at h3
      exact .inr (.inr (.inr ⟨v, h1, h2, h3, by simp [loadAc_eq, acEvents]⟩))
  · exact .inr (.inl ⟨v, h1, h2, by rw [raiseFault_eq]⟩)

end Sys2Proof.Machine
end

