-- ==== Sys2Proof/Laws/Host.lean ====
section
/-! SUPPORT. What the host's commands can do, and the one induction over the reachable states. -/

namespace Sys2Proof.Machine

/-- What a load that is accepted does, R272. -/
theorem load_cases {image : List (Nat × Int)} {pe : Nat} {s t : State}
    (h : load image pe s = .next t) :
    loadable s ∧ (∀ c ∈ image, c.1 < Config.memSize) ∧ (∀ c ∈ image, InRange c.2) ∧
      t = { s with mem := Memory.writeAll [] image, progEnd := pe } := by
  by_cases hl : loadable s
  · by_cases ha : ∀ c ∈ image, c.1 < Config.memSize
    · by_cases hv : ∀ c ∈ image, InRange c.2
      · rw [load, if_neg (not_not_intro hl), if_neg (not_not_intro ha), if_neg (not_not_intro hv)] at h
        cases h
        exact ⟨hl, ha, hv, rfl⟩
      · rw [load, if_neg (not_not_intro hl), if_neg (not_not_intro ha), if_pos hv] at h
        cases h
    · rw [load, if_neg (not_not_intro hl), if_pos ha] at h
      cases h
  · rw [load, if_pos hl] at h
    cases h

/-- A run makes a step, if the machine has one. -/
theorem runSteps_succ_next {k : Nat} {s t : State} (h : step s = .next t) :
    runSteps (k + 1) s = runSteps k t := by
  rw [runSteps, h]

/-- A run stays where the machine has no step. -/
theorem runSteps_of_stuck {s : State} (h : ∀ t, step s ≠ .next t) (k : Nat) : runSteps k s = s := by
  cases k with
  | zero => rfl
  | succ k =>
    cases hs : step s with
    | next t => exact absurd hs (h t)
    | fault f => rw [runSteps, hs]
    | refused r => rw [runSteps, hs]

/-- What every step keeps, every run keeps. -/
theorem runSteps_keeps {P : State → Prop} (hstep : ∀ s t, P s → step s = .next t → P t) (k : Nat)
    {s : State} (hs : P s) : P (runSteps k s) := by
  induction k generalizing s with
  | zero => exact hs
  | succ k ih =>
    by_cases h : ∃ t, step s = .next t
    · obtain ⟨t, ht⟩ := h
      rw [runSteps_succ_next ht]
      exact ih (hstep s t hs ht)
    · rw [runSteps_of_stuck fun t ht => h ⟨t, ht⟩]
      exact hs

/-- The induction over the reachable states, R274: what holds at reset, and what steps, the completion
of an IN, reset, an accepted load and further answers keep, holds in every one of them. -/
theorem Reachable.invariant {P : State → Prop} (hinit : P State.reset)
    (hstep : ∀ s t, P s → Machine.step s = .next t → P t)
    (hinput : ∀ x s, P s → s.inReq = true → P (completeInput x s))
    (hreset : ∀ s, P s → P (hostReset s))
    (hload : ∀ image pe s t, P s → load image pe s = .next t → P t)
    (hsupply : ∀ xs s, P s → P (supplyAnswers xs s)) {s : State} (h : Reachable s) : P s := by
  have hcycle : ∀ s t, P s → cycleStep s = .next t → P t := fun s t hs ht =>
    hstep s t hs ((step_of_cycleEnabled (cycleStep_cases ht).1).trans (cycleStep_cases ht).2)
  induction h with
  | reset => exact hinit
  | step _ ht ih => exact hstep _ _ ih ht
  | supply xs _ ih => exact hsupply xs _ ih
  | act a _ ht ih =>
    cases a with
    | cycle => exact hcycle _ _ ih ht
    | singleStep => exact hcycle _ _ ih ht
    | run k =>
      simp only [hostAct] at ht
      split at ht <;> cases ht
      exact runSteps_keeps hstep k ih
    | pause => cases ht; exact ih
    | setRate => cases ht; exact ih
    | input x =>
      simp only [hostAct] at ht
      split at ht <;> cases ht
      exact hinput x _ ih ‹_›
    | reset => cases ht; exact hreset _ ih
    | load image pe => exact hload image pe _ _ ih ht

end Sys2Proof.Machine
end

