-- ==== Sys2Proof/Laws/PerInstr.lean ====
section
/-! SUPPORT. Statements about every instruction as syntax, one lemma per constructor. -/

namespace Sys2Proof.Laws.CanonicalWord

/-- The canonical encoding of an instruction is a word, and no negative one (R88). -/
def Statement (i : Instr) : Prop :=
  i.wellFormed = true → InRange (encode i) ∧ 0 ≤ encode i

theorem encodeDigit_canonical {d : Nat} (hd : d < 9) (a : Nat) :
    InRange (encodeDigit d a) ∧ 0 ≤ encodeDigit d a := by
  rw [encodeDigit, inRange_iff]
  omega

theorem halt (a : Nat) : Statement (.halt a) := fun _ => encodeDigit_canonical (by decide) a
theorem add (a : Nat) : Statement (.add a) := fun _ => encodeDigit_canonical (by decide) a
theorem sub (a : Nat) : Statement (.sub a) := fun _ => encodeDigit_canonical (by decide) a
theorem store (a : Nat) : Statement (.store a) := fun _ => encodeDigit_canonical (by decide) a
theorem nop (a : Nat) : Statement (.nop a) := fun _ => encodeDigit_canonical (by decide) a
theorem load (a : Nat) : Statement (.load a) := fun _ => encodeDigit_canonical (by decide) a
theorem br (a : Nat) : Statement (.br a) := fun _ => encodeDigit_canonical (by decide) a
theorem brz (a : Nat) : Statement (.brz a) := fun _ => encodeDigit_canonical (by decide) a
theorem brp (a : Nat) : Statement (.brp a) := fun _ => encodeDigit_canonical (by decide) a
theorem inp : Statement .inp := fun _ => by decide
theorem out : Statement .out := fun _ => by decide

end Sys2Proof.Laws.CanonicalWord
end

