-- ==== Sys2Proof/Tests/Slice0.lean ====
section
/-! SUPPORT. The model's own tests. The expected results are those of spec/95_test_vectors.md (the
vector's name stands in the docstring) or of the examples in the rules. After them stands a witness
for each statement that has hypotheses: a state and operands that meet them together. -/

namespace Sys2Proof.Tests

open Sys2Proof.Machine

/-- A launch state (R273), with no event recorded. -/
def launch (image : List (Nat × Int)) (pe : Nat) : State :=
  { State.reset with mem := Memory.writeAll [] image, progEnd := pe, trace := [] }

/-- A state in the middle of a run: RUNNING, with the given PC and AC. -/
def midRun (pc : Nat) (ac : Int) (image : List (Nat × Int)) : State :=
  { launch image 100 with rs := .running, pc := pc, ac := ac }

/-- A state in which the IN at address 0 waits (V-IN-1). -/
def waiting (pe : Nat) (answers : List InputAnswer) : State :=
  { launch [(0, 901)] pe with
    rs := .running, pc := 1, ir := 901, mbr := 901, inReq := true, answers := answers }

def nextOf : Outcome → Option State
  | .next t => some t
  | .fault _ => none
  | .refused _ => none

def faultOf : Outcome → Option Fault
  | .next _ => none
  | .fault f => some f
  | .refused _ => none

def refusalOf : Outcome → Option Refusal
  | .next _ => none
  | .fault _ => none
  | .refused r => some r

/-! ### Well-formedness: each operand check refuses an ill-formed term -/

theorem test_wellFormed_refuses_halt : (Instr.halt 100).wellFormed = false := by decide
theorem test_wellFormed_refuses_add : (Instr.add 100).wellFormed = false := by decide
theorem test_wellFormed_refuses_sub : (Instr.sub 100).wellFormed = false := by decide
theorem test_wellFormed_refuses_store : (Instr.store 940).wellFormed = false := by decide
theorem test_wellFormed_refuses_nop : (Instr.nop 100).wellFormed = false := by decide
theorem test_wellFormed_refuses_load : (Instr.load 940).wellFormed = false := by decide
theorem test_wellFormed_refuses_br : (Instr.br 100).wellFormed = false := by decide
theorem test_wellFormed_refuses_brz : (Instr.brz 105).wellFormed = false := by decide
theorem test_wellFormed_refuses_brp : (Instr.brp 100).wellFormed = false := by decide

/-! ### Decoding: a word written out digit by digit for every instruction (R81, R82) -/

theorem test_decode_halt : decode (0 * 100 + 9 * 10 + 9) = .known (.halt 99) := by decide
theorem test_decode_add : decode (1 * 100 + 4 * 10 + 1) = .known (.add 41) := by decide
theorem test_decode_sub : decode (2 * 100 + 2 * 10 + 0) = .known (.sub 20) := by decide
theorem test_decode_store : decode (3 * 100 + 4 * 10 + 1) = .known (.store 41) := by decide
theorem test_decode_nop : decode (4 * 100 + 5 * 10 + 0) = .known (.nop 50) := by decide
theorem test_decode_load : decode (-(5 * 100 + 1 * 10 + 0)) = .known (.load 10) := by decide
theorem test_decode_br : decode (6 * 100 + 0 * 10 + 1) = .known (.br 1) := by decide
theorem test_decode_brz : decode (7 * 100 + 0 * 10 + 5) = .known (.brz 5) := by decide
theorem test_decode_brp : decode (8 * 100 + 9 * 10 + 9) = .known (.brp 99) := by decide
theorem test_decode_in : decode (9 * 100 + 0 * 10 + 1) = .known .inp := by decide
theorem test_decode_out : decode (9 * 100 + 0 * 10 + 2) = .known .out := by decide
theorem test_decode_minus_901 : decode (-901) = .unknown 1 := by decide
theorem test_decode_903 : decode 903 = .unknown 3 := by decide

/-- The encodings of spec/95_test_vectors.md, Encode: the operand is taken modulo 100. -/
theorem test_encode_vectors :
    encode (.load 940) = 540 ∧ encode (.add 941) = 141 ∧ encode (.store 941) = 341 ∧
    encode (.br 0) = 600 ∧ encode (.brz 105) = 705 ∧ encode (.halt 7) = 7 := by decide

theorem test_decodeTableWord :
    decodeTableWord 16 510 = some (.load 10) ∧ decodeTableWord 16 900 = none ∧
    decodeTableWord 16 1510 = none := by decide

/-! ### One step each -/

/-- V-HLT-1. -/
theorem test_halt : ((nextOf (step (midRun 1 0 []))).map
    fun t => (t.rs, t.cause, t.pc, t.ir, t.mar, t.mbr)) = some (.halted, .none, 2, 0, 1, 0) := by
  decide

/-- V-HLT-2: a negative word halts. -/
theorem test_halt_negative : ((nextOf (step (launch [(0, -99)] 100))).map
    fun t => (t.rs, t.ir)) = some (.halted, -99) := by decide

/-- V-ADD-1. -/
theorem test_add : ((nextOf (exec (.add 41) (midRun 1 3 [(41, 2)]))).map
    fun t => (t.ac, t.z, t.n, t.mar, t.mbr)) = some (5, false, false, 41, 2) := by decide

/-- V-ADD-2 and its event, on the IR and PC that fetch leaves. -/
theorem test_add_overflow :
    ((nextOf (exec (.add 11) { midRun 2 999 [(11, 1)] with ir := 111 })).map
      fun t => ((t.rs, t.cause, t.ac), (t.mar, t.mbr), t.trace)) =
    some ((.errored, .overflow, 999), (11, 1),
      [.reg .mar 11, .memRead 11, .reg .mbr 1, .error .overflow 1 111 (some 1000),
        .runState .errored, .cycle 1]) := by decide

/-- V-SUB-5: AC minus the memory word. -/
theorem test_sub : ((nextOf (exec (.sub 20) (midRun 1 3 [(20, 5)]))).map
    fun t => (t.ac, t.z, t.n)) = some (-2, false, true) := by decide

/-- V-SUB-3. -/
theorem test_sub_overflow : ((nextOf (exec (.sub 20) (midRun 1 999 [(20, -1)]))).map
    fun t => (t.rs, t.cause, t.ac)) = some (.errored, .overflow, 999) := by decide

/-- V-ST-1. -/
theorem test_store : ((nextOf (exec (.store 41) (midRun 1 5 []))).map
    fun t => (t.mem, t.ac, t.mar, t.mbr, t.trace)) =
    some ([(41, 5)], 5, 41, 5, [.reg .mar 41, .reg .mbr 5, .memWritten 41 5]) := by decide

/-- V-ST-3: a STORE of 0 over the instruction being executed, whose word IR keeps. -/
theorem test_store_over_itself : ((nextOf (step (midRun 3 0 [(3, 303)]))).map
    fun t => (t.mem, t.ir)) = some ([], 303) := by decide

/-- V-NOP-2: only fetch's writes and the end of the cycle. -/
theorem test_nop : ((nextOf (step (midRun 5 0 [(5, 499)]))).map
    fun t => (t.pc, t.ac, t.rs, t.cyc)) = some (6, 0, .running, 1) := by decide

/-- V-CYC-1: the off-end check after a NOP, with the events of the cycle. -/
theorem test_nop_off_end : ((nextOf (step (launch [(0, 400)] 1))).map
    fun t => (t.rs, t.cause, t.trace)) =
    some (.halted, .outOfProgram,
      [.runState .running, .reg .mar 0, .memRead 0, .reg .mbr 400, .reg .ir 400, .reg .pc 1,
        .executed 0, .warning .outOfProgram 1, .runState .halted, .cycle 1]) := by decide

/-- R126: the worked first cycle, with every event. -/
theorem test_load_worked_cycle : ((nextOf (step (launch [(0, 510), (10, 5)] 3))).map
    fun t => ((t.pc, t.ac, t.ir), (t.mar, t.mbr, t.rs), (t.cyc, t.trace))) =
    some ((1, 5, 510), (10, 5, .running), (1,
      [.runState .running, .reg .mar 0, .memRead 0, .reg .mbr 510, .reg .ir 510, .reg .pc 1,
        .executed 0, .reg .mar 10, .memRead 10, .reg .mbr 5, .reg .ac 5, .flags false false,
        .cycle 1])) := by decide

/-- V-LD-3. -/
theorem test_load_negative : ((nextOf (exec (.load 10) (midRun 1 0 [(10, -999)]))).map
    fun t => (t.ac, t.z, t.n)) = some (-999, false, true) := by decide

/-- V-BR-1. -/
theorem test_br : ((nextOf (step (midRun 4 0 [(4, 601)]))).map fun t => t.pc) = some 1 := by decide

/-- V-BR-2: a target past the program halts without a fetch of it. -/
theorem test_br_off_end : ((nextOf (step { midRun 2 0 [(2, 650)] with progEnd := 6 })).map
    fun t => (t.pc, t.rs, t.cause, t.ir)) = some (50, .halted, .outOfProgram, 650) := by decide

/-- V-BRZ-1: taken at launch, where Z is still false. -/
theorem test_brz_at_launch : ((nextOf (step (launch [(0, 705)] 10))).map
    fun t => (t.pc, t.z)) = some (5, false) := by decide

/-- V-BRZ-3. -/
theorem test_brz_not_taken : ((nextOf (step (midRun 3 (-1) [(3, 705)]))).map
    fun t => t.pc) = some 4 := by decide

/-- V-BRP-1: zero counts as non-negative. -/
theorem test_brp_zero : ((nextOf (step (midRun 1 0 [(1, 806)]))).map
    fun t => t.pc) = some 6 := by decide

/-- V-BRP-2. -/
theorem test_brp_not_taken : ((nextOf (step (midRun 1 (-7) [(1, 806)]))).map
    fun t => t.pc) = some 2 := by decide

/-- V-IN-1. -/
theorem test_in_suspends : ((nextOf (step (launch [(0, 901)] 100))).map
    fun t => ((t.inReq, t.rs, t.cyc), (t.pc, t.ir, t.mar, t.mbr))) =
    some ((true, .running, 0), (1, 901, 0, 901)) := by decide

/-- V-IN-2, by the answer queued. -/
theorem test_in_answered : ((nextOf (step (waiting 100 [.answer (-7)]))).map
    fun t => ((t.ac, t.z, t.n), (t.inReq, t.cyc), t.trace)) =
    some ((-7, false, true), (false, 1), [.reg .ac (-7), .flags false true, .cycle 1]) := by decide

/-- V-IN-5. -/
theorem test_input_out_of_range :
    ((nextOf (hostAct (.input (.answer 1000)) (waiting 100 []))).map
      fun t => (t.rs, t.cause, t.ac, t.inReq, t.trace)) =
    some (.errored, .overflow, 0, false,
      [.error .overflow 0 901 (some 1000), .runState .errored, .cycle 1]) := by decide

/-- V-IN-6. -/
theorem test_input_cancelled :
    ((nextOf (hostAct (.input .cancel) (waiting 100 []))).map
      fun t => (t.rs, t.cause, t.trace)) =
    some (.errored, .inputCancelled,
      [.error .inputCancelled 0 901 none, .runState .errored, .cycle 1]) := by decide

/-- V-IN-8. -/
theorem test_input_off_end : ((nextOf (step (waiting 1 [.answer 4]))).map
    fun t => (t.ac, t.rs, t.cause)) = some (4, .halted, .outOfProgram) := by decide

/-- R210: with no answer the machine waits. -/
theorem test_input_awaited : faultOf (step (waiting 100 [])) = some .inputAwaited := by decide

/-- V-OUT-3. -/
theorem test_out : ((nextOf (exec .out (midRun 1 (-5) []))).map
    fun t => (t.outLog, t.trace)) = some ([-5], [.output (-5)]) := by decide

/-- V-UNK-2: −901 requests no input. -/
theorem test_unknown : ((nextOf (step (launch [(0, -901)] 100))).map
    fun t => (t.rs, t.cause.code, t.ir, t.pc, t.cyc, t.inReq)) =
    some (.errored, 2, -901, 1, 1, false) := by decide

/-- V-BOUNDS, cycle 3. -/
theorem test_bounds :
    ((nextOf (step { midRun 100 0 [(99, 400)] with
      progEnd := 101, ir := 400, mar := 99, mbr := 400, cyc := 2 })).map
      fun t => (t.rs, t.cause.code, t.pc, t.mar, t.trace)) =
    some (.errored, 4, 100, 99,
      [.error .bounds 100 400 (some 100), .runState .errored, .cycle 3]) := by decide

/-- V-CYC-3. -/
theorem test_halted_has_no_successor :
    faultOf (step { launch [] 0 with rs := .halted }) = some .halted := by decide

theorem test_errored_has_no_successor :
    faultOf (step { launch [] 0 with rs := .errored }) = some .errored := by decide

/-- V-LD-IMG-1. -/
theorem test_load_word_refused :
    refusalOf (hostAct (.load [(3, 1000)] 4) State.reset) = some .loadWordOutOfRange := by decide

theorem test_load_address_refused :
    refusalOf (hostAct (.load [(100, 1)] 4) State.reset) = some .loadAddressOutsideMemory := by
  decide

/-- V-LD-IMG-2. -/
theorem test_load_mid_run_refused :
    refusalOf (hostAct (.load [] 4) (midRun 1 0 [])) = some .loadNotAfterReset := by decide

/-- R65: the last write of an address wins. -/
theorem test_load_last_write_wins :
    ((nextOf (hostAct (.load [(7, 1), (3, 5), (7, 2)] 8) State.reset)).map
      fun t => (t.mem, t.progEnd)) = some ([(3, 5), (7, 2)], 8) := by decide

/-- The placed word is the first one to run after reset. -/
theorem test_placed_word_runs :
    ((nextOf (step (State.reset.withFetchWord 16 902))).map
      fun t => (t.outLog, t.ir)) = some ([0], 902) := by decide

/-! ### Witnesses -/

theorem witness_EncodeIsCanonicalAndDecodesBack :
    (Instr.brp 99).wellFormed = true ∧ (Instr.halt 0).wellFormed = true ∧
    Instr.inp.wellFormed = true := by decide

theorem witness_NonNegativeWordsEncodeBack :
    (0 : Int) ≤ 902 ∧ (902 : Int) ≤ 999 ∧ decode 902 = .known .out := by decide

/-- Both ends of every row, either sign. -/
theorem witness_OpcodeMapIsTotal :
    (∀ w ∈ [(-99 : Int), 0, 99, 100, -199, 200, 299, 300, -399, 400, 499, 500, -599, 600, 699, 700,
      799, 800, -899, 901, 902, 900, -900, -901, -902, 999, -999], InRange w) ∧
    (-99 : Int).natAbs ≤ 99 ∧ 100 ≤ (-199 : Int).natAbs ∧ (-199 : Int).natAbs ≤ 199 ∧
    800 ≤ (-899 : Int).natAbs ∧ (-899 : Int).natAbs ≤ 899 ∧
    900 ≤ (-901 : Int).natAbs ∧ (-901 : Int) ≠ 901 ∧ (-901 : Int) ≠ 902 := by decide

theorem witness_DecodeIgnoresTheSign :
    (-510 : Int).natAbs ≠ 901 ∧ (-510 : Int).natAbs ≠ 902 := by decide

theorem witness_OperandIsTheTwoLowDigits :
    decode (-599) = .known (.load 99) ∧ (Instr.load 99).operand = some 99 := by decide

/-- 999 is the last sum in range, and 1000 the first out of it. -/
theorem witness_AddWritesSumOrOverflows :
    99 < 100 ∧ InRange ((midRun 1 998 [(99, 1)]).ac + (midRun 1 998 [(99, 1)]).mem.read 99) ∧
    ¬ InRange ((midRun 1 999 [(99, 1)]).ac + (midRun 1 999 [(99, 1)]).mem.read 99) := by decide

theorem witness_SubWritesDifferenceOrOverflows :
    99 < 100 ∧ InRange ((midRun 1 (-998) [(99, 1)]).ac - (midRun 1 (-998) [(99, 1)]).mem.read 99) ∧
    ¬ InRange ((midRun 1 (-999) [(99, 1)]).ac - (midRun 1 (-999) [(99, 1)]).mem.read 99) := by
  decide

theorem witness_StoreWritesAcToItsAddress :
    300 ≤ (-399 : Int).natAbs ∧ (-399 : Int).natAbs ≤ 399 ∧ 99 < 100 ∧
    (midRun 1 5 [(98, 1), (99, 7)]).mem.wf ∧ 98 ≠ 99 := by decide

theorem witness_LoadWritesMemoryWordToAc :
    500 ≤ (-599 : Int).natAbs ∧ (-599 : Int).natAbs ≤ 599 ∧ 99 < 100 := by decide

theorem witness_HaltStopsTheMachine : (-99 : Int).natAbs ≤ 99 := by decide

theorem witness_HaltCycleSkipsTheOffEndCheck :
    cycleEnabled (midRun 99 0 [(99, -99)]) ∧ (midRun 99 0 [(99, -99)]).pc < 100 ∧
    ((midRun 99 0 [(99, -99)]).mem.read 99).natAbs ≤ 99 := by decide

theorem witness_NopDoesNothing :
    400 ≤ (499 : Int).natAbs ∧ (499 : Int).natAbs ≤ 499 ∧
    cycleEnabled (midRun 99 0 [(99, -450)]) ∧ (midRun 99 0 [(99, -450)]).pc < 100 ∧
    decode ((midRun 99 0 [(99, -450)]).mem.read 99) = .known (.nop 50) := by decide

theorem witness_BrWritesPc :
    600 ≤ (699 : Int).natAbs ∧ (699 : Int).natAbs ≤ 699 ∧ 99 < 100 ∧
    cycleEnabled (midRun 99 0 [(99, 699)]) ∧ (midRun 99 0 [(99, 699)]).pc < 100 ∧
    decode ((midRun 99 0 [(99, 699)]).mem.read 99) = .known (.br 99) ∧
    99 < (midRun 99 0 [(99, 699)]).progEnd ∧ (launch [(0, 699)] 99).progEnd ≤ 99 ∧
    decode ((launch [(0, 699)] 99).mem.read 0) = .known (.br 99) := by decide

theorem witness_BrzTestsAcForZero :
    700 ≤ (700 : Int).natAbs ∧ (799 : Int).natAbs ≤ 799 ∧ 99 < 100 ∧
    (midRun 1 0 []).ac = 0 ∧ (midRun 1 (-1) []).ac ≠ 0 := by decide

theorem witness_BrpTestsAcForNonNegative :
    800 ≤ (800 : Int).natAbs ∧ (899 : Int).natAbs ≤ 899 ∧ 99 < 100 ∧
    0 ≤ (midRun 1 0 []).ac ∧ (midRun 1 (-1) []).ac < 0 := by decide

theorem witness_InCycleIsSuspended :
    cycleEnabled (launch [(0, 901)] 1) ∧ (launch [(0, 901)] 1).pc < 100 ∧
    (launch [(0, 901)] 1).mem.read 0 = 901 := by decide

theorem witness_InputAnswerInRangeIsAccepted :
    (waiting 100 []).inReq = true ∧ InRange (-999) ∧ InRange 999 := by decide

theorem witness_InputAnswerOutOfRangeOverflows :
    (waiting 100 []).inReq = true ∧ ¬ InRange (-1000) ∧ ¬ InRange 1000 := by decide

theorem witness_InputCancelledOnlyByCancel :
    (waiting 100 [.cancel]).inReq = true ∧ (waiting 100 [.cancel]).cause ≠ .inputCancelled ∧
    (nextOf (step (waiting 100 [.cancel]))).map (fun t => t.cause) = some .inputCancelled := by
  decide

theorem witness_IllFormedAddressStops : 100 ≤ 100 := by decide

/-- Every instruction has a next state, and ADD and SUB in both their forms. -/
theorem witness_ExecuteWritesOnlyItsTableRow :
    ∀ i ∈ [Instr.halt 99, .add 99, .add 98, .sub 99, .store 99, .nop 99, .load 99, .br 99, .brz 99,
      .brp 99, .inp, .out], (nextOf (exec i (midRun 1 999 [(98, 1)]))).isSome = true := by decide

theorem witness_SubUndoesAdd :
    99 < 100 ∧ InRange (midRun 1 998 [(99, 1)]).ac ∧
    InRange ((midRun 1 998 [(99, 1)]).ac + (midRun 1 998 [(99, 1)]).mem.read 99) := by decide

theorem witness_StepRunsDecodedInstruction :
    cycleEnabled (midRun 99 0 [(99, 400)]) ∧ (midRun 99 0 [(99, 400)]).pc < 100 ∧
    decode ((midRun 99 0 [(99, 400)]).mem.read 99) = .known (.nop 0) := by decide

theorem witness_EndCycleChecksTheProgramEnd :
    ((midRun 100 0 []).rs = .running ∧ (midRun 100 0 []).progEnd ≤ (midRun 100 0 []).pc) ∧
    ¬ ((midRun 99 0 []).rs = .running ∧ (midRun 99 0 []).progEnd ≤ (midRun 99 0 []).pc) := by
  decide

theorem witness_UnknownWordRaisesUnknownOpcode :
    cycleEnabled (launch [(0, -901)] 1) ∧ (launch [(0, -901)] 1).pc < 100 ∧
    decode ((launch [(0, -901)] 1).mem.read 0) = .unknown 1 := by decide

theorem witness_FetchOutsideMemoryRaisesBounds :
    cycleEnabled (midRun 100 0 []) ∧ 100 ≤ (midRun 100 0 []).pc := by decide

theorem witness_CycleIsEnabledExactlyWhenItMayRun :
    (waiting 100 []).inReq = true ∧
    (nextOf (hostAct .reset (waiting 100 []))).any (fun t => t != waiting 100 []) = true ∧
    (nextOf (hostAct (.input .cancel) (waiting 100 []))).any (fun t => t != waiting 100 []) =
      true := by decide

theorem witness_TerminalStatesAreLeftOnlyByReset :
    (State.Inv { launch [] 0 with rs := .halted }) ∧ (State.Inv { launch [] 0 with rs := .errored }) ∧
    State.ended { launch [] 0 with rs := .halted } ∧
    State.ended { launch [] 0 with rs := .errored } := by
  refine ⟨?_, ?_, by decide, by decide⟩ <;> constructor <;> decide

/-- A cycle that goes on, one that halts off the end, and a HALT. -/
theorem witness_CycleEmitsItsEventsInOrder :
    (∀ s ∈ [midRun 1 0 [(1, 801)], { midRun 1 0 [(1, 801)] with progEnd := 1 }],
      cycleEnabled s ∧ s.pc < 100 ∧ decode (s.mem.read s.pc) = .known (.brp 1) ∧
      (nextOf (step s)).any (fun t => t.rs != .errored && t.inReq == false) = true) ∧
    decode ((midRun 1 0 []).mem.read 1) = .known (.halt 0) ∧
    (nextOf (step (midRun 1 0 []))).any (fun t => t.rs == .halted) = true := by decide

theorem witness_StoreIsSeenByTheNextFetch :
    (midRun 3 902 [(3, 304)]).mem.wf ∧ cycleEnabled (midRun 3 902 [(3, 304)]) ∧
    (midRun 3 902 [(3, 304)]).pc < 100 ∧
    decode ((midRun 3 902 [(3, 304)]).mem.read 3) = .known (.store 4) ∧
    ((nextOf (step (midRun 3 902 [(3, 304)]))).bind fun t => nextOf (step t)).isSome = true ∧
    4 = (midRun 3 902 [(3, 304)]).pc + 1 := by decide

/-- A cycle inside the memory, and the completion of an IN. -/
theorem witness_PcFollowsFetchAndBranches :
    (cycleEnabled (midRun 99 0 [(99, 700)]) ∧ (midRun 99 0 [(99, 700)]).pc < 100 ∧
      (nextOf (step (midRun 99 0 [(99, 700)]))).isSome = true) ∧
    (¬ (cycleEnabled (waiting 1 [.cancel]) ∧ (waiting 1 [.cancel]).pc < 100) ∧
      (nextOf (step (waiting 1 [.cancel]))).isSome = true) := by decide

theorem witness_RunningStaysInsideTheProgram :
    (nextOf (step (midRun 98 0 [(98, 400)]))).any
      (fun t => t.rs == .running && t.inReq == false) = true := by decide

theorem witness_OnlyStoreWritesMemory :
    (nextOf (step (midRun 3 5 [(3, 399)]))).isSome = true := by decide

theorem witness_FlagsAreWrittenOnlyWithAc :
    (nextOf (step (midRun 3 5 [(3, 103)]))).isSome = true ∧
    (nextOf (step (waiting 1 [.answer 0]))).isSome = true := by decide

theorem witness_OnlyOutExtendsTheOutputRecord :
    (nextOf (step (midRun 3 5 [(3, 902)]))).isSome = true := by decide

theorem witness_OnlyFetchWritesIr :
    (cycleEnabled (midRun 3 5 [(3, -3)]) ∧ (midRun 3 5 [(3, -3)]).pc < 100 ∧
      (nextOf (step (midRun 3 5 [(3, -3)]))).isSome = true) ∧
    (¬ (cycleEnabled (midRun 100 5 []) ∧ (midRun 100 5 []).pc < 100) ∧
      (nextOf (step (midRun 100 5 []))).isSome = true) := by decide

/-- Each fatal cause: BOUNDS, UNKNOWN_OPCODE, OVERFLOW by ADD, SUB and IN, INPUT_CANCELLED. -/
theorem witness_FatalCausesHaveTheirConditions :
    ∀ s ∈ [midRun 100 0 [], midRun 0 0 [(0, 900)], midRun 0 999 [(0, 101), (1, 1)],
      midRun 0 (-999) [(0, 201), (1, 1)], waiting 1 [.answer 1000], waiting 1 [.cancel]],
      s.rs ≠ .errored ∧ (nextOf (step s)).any (fun t => t.rs == .errored) = true := by decide

theorem witness_CauseAgreesWithTheRunState :
    causeAgrees (midRun 1 0 []).rs (midRun 1 0 []).cause = true ∧
    (nextOf (step (midRun 1 0 []))).isSome = true := by decide

theorem witness_RunStateFollowsItsTransitions :
    (midRun 1 0 []).Inv ∧ (midRun 1 0 []).rs ≠ .halted ∧
    (nextOf (step (midRun 1 0 []))).any (fun t => t.rs == .halted) = true ∧
    (midRun 1 0 [(1, 400)]).rs ≠ .halted ∧
    (nextOf (step { midRun 1 0 [(1, 400)] with progEnd := 2 })).any (fun t => t.rs == .halted) =
      true := by
  refine ⟨?_, by decide⟩
  constructor <;> decide

/-- A state reached by a load, an answer queued and a step. -/
theorem reachable_example :
    ∃ t, Reachable t ∧ t.inReq = true ∧ t.answers = [.answer 7] ∧ t.cyc = 0 := by
  refine ⟨_, .step (.supply [.answer 7] (.act (.load [(0, 901)] 2) .reset rfl)) rfl, ?_⟩
  decide

/-- Both cases: AC not written since reset, and written, there with 0. -/
theorem witness_FlagsFollowAcOnceItIsWritten :
    (Reachable State.reset ∧ acWritten State.reset.trace = false) ∧
    ∃ t, Reachable t ∧ acWritten t.trace = true ∧ t.ac = 0 ∧ t.z = true := by
  refine ⟨⟨.reset, by decide⟩, _, .step (.act (.load [(0, 510)] 2) .reset rfl) rfl, ?_⟩
  decide

theorem witness_CycCountsTheCompletedCycles :
    ∃ t, Reachable t ∧ t.cyc = 1 ∧ t.rs = .halted := by
  refine ⟨_, .step .reset rfl, ?_⟩
  decide

theorem witness_MemoryIsDeterminedByItsWords :
    Memory.wf [(3, 5), (99, -7)] ∧
    ∀ a, Memory.read [(3, 5), (99, -7)] a = Memory.read [(3, 5), (99, -7)] a :=
  ⟨by decide, fun _ => rfl⟩

theorem witness_StepKeepsTheInvariant :
    State.reset.Inv ∧ (nextOf (step State.reset)).isSome = true := by
  refine ⟨?_, by decide⟩
  constructor <;> decide

theorem witness_EveryReachableStateHasTheInvariant : ∃ t, Reachable t ∧ t.answers ≠ [] :=
  let ⟨t, h, _, ha, _⟩ := reachable_example
  ⟨t, h, by simp [ha]⟩

/-- The next steps of a state with no successor execute no branch. -/
theorem branchFree_of_stuck {s : State} (h : nextOf (step s) = none) (hc : ¬ cycleEnabled s)
    (k : Nat) : branchFree k s := by
  cases k with
  | zero => trivial
  | succ k => exact ⟨fun hc' => absurd hc' hc, fun t ht => by simp [ht, nextOf] at h⟩

theorem witness_BranchFreeRunStops :
    (launch [(1, 400)] 2).Inv ∧ cycleEnabled (launch [(1, 400)] 2) ∧
    (launch [(1, 400)] 2).pc < 100 ∧ (launch [(1, 400)] 2).progEnd ≤ 100 ∧
    branchFree 200 (launch [(1, 400)] 2) := by
  refine ⟨by constructor <;> decide, by decide, by decide, by decide, fun _ => by decide, ?_⟩
  intro t ht
  have h : nextOf (step (launch [(1, 400)] 2)) = some t := by rw [ht]; rfl
  have hs : t.rs = .halted ∧ t.inReq = false := by
    have := congrArg (Option.map fun u => (u.rs, u.inReq)) h
    simpa using this.symm.trans (by decide : _ = some (RunState.halted, false))
  exact branchFree_of_stuck (by simp [step, cycleStep, hs, nextOf])
    (by simp [cycleEnabled, hs]) _

theorem witness_BranchToItselfHangs :
    cycleEnabled (midRun 99 0 [(99, 699)]) ∧ (midRun 99 0 [(99, 699)]).pc < 100 ∧
    (midRun 99 0 [(99, 699)]).pc < (midRun 99 0 [(99, 699)]).progEnd ∧
    decode ((midRun 99 0 [(99, 699)]).mem.read 99) = .known (.br 99) := by decide

theorem witness_LoadIsAcceptedExactlyAfterReset :
    (State.reset.rs = .ready ∧ State.reset.cyc = 0 ∧ State.reset.inReq = false ∧
      State.reset.mem = []) ∧
    (∀ c ∈ [((0 : Nat), (-999 : Int)), (99, 999)], c.1 ≤ 99 ∧ InRange c.2) ∧
    ¬ ((midRun 1 0 []).rs = .ready ∧ (midRun 1 0 []).cyc = 0 ∧ (midRun 1 0 []).inReq = false ∧
      (midRun 1 0 []).mem = []) ∧
    (∃ c ∈ [((100 : Nat), (5 : Int))], 99 < c.1) ∧
    (∀ c ∈ [((99 : Nat), (1000 : Int))], c.1 ≤ 99) ∧
    (∃ c ∈ [((99 : Nat), (-1000 : Int))], ¬ InRange c.2) := by decide

theorem witness_LaunchStateHoldsTheImage :
    ∀ c ∈ [((0 : Nat), (-999 : Int)), (99, 999), (0, 5)], c.1 ≤ 99 ∧ InRange c.2 := by decide

/-- A run that is over before its last step, one that is not enabled, and one that is paused. -/
theorem witness_PacingChangesNoResult :
    cycleEnabled (launch [(0, 400)] 9) ∧ ¬ cycleEnabled (waiting 1 []) ∧
    (nextOf (hostAct (.run 1) (launch [(0, 400)] 9))).any (fun t => cycleEnabled t) = true ∧
    (nextOf (hostAct (.run 5) (launch [(0, 400)] 9))).any (fun t => t.rs == .halted) = true := by
  decide

theorem witness_PlacedWordIsFetchedNext :
    State.reset.mem.wf ∧ 999 ≤ 999 ∧ cycleEnabled State.reset ∧ State.reset.pc < 100 := by decide

end Sys2Proof.Tests
end

section
/-! PROOFS. The two exact words of format S (spec/30_encoding.md R82). -/

namespace Sys2Proof

/-- IN is the word +901 and no other, R82. -/
theorem decode_eq_inp_iff (w : Int) : decode w = .known .inp ↔ w = 901 := by
  constructor
  · exact decode_inp
  · rintro rfl
    rfl

/-- OUT is the word +902 and no other, R82. -/
theorem decode_eq_out_iff (w : Int) : decode w = .known .out ↔ w = 902 := by
  constructor
  · exact decode_out
  · rintro rfl
    rfl

/-- The test for format S is on the signed value, so −901 is format D with the digit 9, R82. -/
theorem decode_neg_901 : decode (-901) = .unknown 1 := by decide

/-- The test for format S is on the signed value, so −902 is format D with the digit 9, R82. -/
theorem decode_neg_902 : decode (-902) = .unknown 2 := by decide

/-- Settles O5: only the two exact signed words reach IN and OUT, since every instruction of
format D has an operand. -/
theorem formatSIsTwoExactWords : Obligations.FormatSIsTwoExactWords :=
  ⟨decode_eq_inp_iff, decode_eq_out_iff, rfl, rfl, decode_neg_901, decode_neg_902⟩

end Sys2Proof
end

section
/-! PROOFS. The unknown opcode: which words are unknown (spec/30_encoding.md R87), and the cycle that
raises UNKNOWN_OPCODE (spec/40_cycle.md R115, R233). -/

namespace Sys2Proof

/-- Exactly the hundreds digit 9 is no opcode of format D, so exactly the words with it are unknown,
but for the two words of format S that the decoder tests for first. -/
theorem decode_unknown_iff (w : Int) :
    (∃ a, decode w = .unknown a) ↔ digit2 w = 9 ∧ w ≠ 901 ∧ w ≠ 902 := by
  constructor
  · rintro ⟨a, h⟩
    obtain ⟨h9, -, hi, ho⟩ := decode_unknown h
    exact ⟨h9, hi, ho⟩
  · rintro ⟨h9, hi, ho⟩
    exact ⟨digits10 w, by rw [decode, if_neg hi, if_neg ho, h9]; rfl⟩

end Sys2Proof

namespace Sys2Proof.Machine

variable {s : State} {a : Nat}

theorem execute_of_unknown (h : decode s.ir = .unknown a) :
    execute s = .next (unknownOpcode s) := by
  simp only [execute, h]

theorem cycle_of_pc_lt (h : s.pc < Config.memSize) :
    cycle s = execute (fetchDecode (startCycle s)) := by
  rw [cycle, if_pos h]

/-- An enabled cycle on an unknown word is fetch, then the unknown opcode. -/
theorem step_of_unknown (he : cycleEnabled s) (hp : s.pc < Config.memSize)
    (hd : decode (s.mem.read s.pc) = .unknown a) :
    step s = .next (unknownOpcode (fetchDecode (startCycle s))) := by
  have hir : decode (fetchDecode (startCycle s)).ir = .unknown a := by
    rw [fetchDecode_startCycle_ir, hd]
  rw [step_of_cycleEnabled he, cycle_of_pc_lt hp, execute_of_unknown hir]

/-- The unknown opcode after fetch: fetch's writes stand, and the fault reports the address fetched
from and the word fetched. -/
theorem unknownOpcode_fetchDecode_startCycle (h : cycleEnabled s) :
    unknownOpcode (fetchDecode (startCycle s)) =
      { s with
        pc := s.pc + 1
        mar := s.pc
        mbr := s.mem.read s.pc
        ir := s.mem.read s.pc
        rs := .errored
        cause := .unknownOpcode
        cyc := s.cyc + 1
        trace := s.trace ++ startEvents s ++ fetchEvents s ++
          [.error .unknownOpcode s.pc (s.mem.read s.pc) (some (s.mem.read s.pc)),
            .runState .errored, .cycle (s.cyc + 1)] } := by
  rw [fetchDecode_startCycle h, unknownOpcode, raiseFault_eq]
  simp [instrAddr]

/-- Settles O29: decode's own digit test gives the set of unknown words, and the cycle is fetch
followed by the one entry into ERRORED. -/
theorem unknownWordRaisesUnknownOpcode : Obligations.UnknownWordRaisesUnknownOpcode := by
  refine ⟨decode_unknown_iff, fun s a he hp hd => ?_⟩
  rw [step_of_unknown he hp hd, unknownOpcode_fetchDecode_startCycle he]

end Sys2Proof.Machine
end

section
/-! PROOFS. STORE and LOAD: the words that encode them, what each writes, and what a read of memory
gives after a STORE (spec/42_load_store.md R161, R162). -/

namespace Sys2Proof

/-- The words of format D with the hundreds digit `d`, of either sign: the two special words have
the digit 9, so they are in no such row (R81, R86). -/
theorem decode_of_hundreds {d : Nat} (hd : d < 9) {w : Int} (hlo : d * 100 ≤ w.natAbs)
    (hhi : w.natAbs ≤ d * 100 + 99) : decode w = decodeDigit d (w.natAbs - d * 100) := by
  have hi : w ≠ 901 := by omega
  have ho : w ≠ 902 := by omega
  have hdigit : digit2 w = d := by
    rw [digit2]
    omega
  have hlow : digits10 w = w.natAbs - d * 100 := by
    rw [digits10]
    omega
  rw [decode, if_neg hi, if_neg ho, hdigit, hlow]

end Sys2Proof

namespace Sys2Proof.Machine

variable {a : Nat}

/-- STORE at an address of the machine has a next state: the operand store, R161. -/
theorem exec_store_of_lt (ha : a < Config.memSize) (s : State) :
    exec (.store a) s = .next (storeOperand a s) :=
  checkedAddress_of_lt ha _

/-- LOAD at an address of the machine has a next state: the operand fetch, then the write of AC with
the whole word read, R162. -/
theorem exec_load_of_lt (ha : a < Config.memSize) (s : State) :
    exec (.load a) s = .next (loadAc (s.mem.read a) (readOperand a s)) := by
  have hload : exec (.load a) s = .next (loadAc (readOperand a s).mbr (readOperand a s)) :=
    checkedAddress_of_lt ha _
  rw [hload, readOperand_eq]

/-- Settles O10: the row of the digit 3, the operand store, and a read after a write of memory. -/
theorem storeWritesAcToItsAddress : Obligations.StoreWritesAcToItsAddress := by
  refine ⟨fun _ hlo hhi => decode_of_hundreds (d := 3) (by decide) hlo hhi, fun a s ha => ?_⟩
  have hexec := exec_store_of_lt ha s
  rw [storeOperand_eq] at hexec
  exact ⟨hexec, fun hm => Memory.read_write_same hm a s.ac,
    fun _ hb => Memory.read_write_other s.mem s.ac hb⟩

/-- Settles O11: the row of the digit 5, and the operand fetch followed by the write of AC. -/
theorem loadWritesMemoryWordToAc : Obligations.LoadWritesMemoryWordToAc := by
  refine ⟨fun _ hlo hhi => decode_of_hundreds (d := 5) (by decide) hlo hhi, fun a s ha => ?_⟩
  rw [exec_load_of_lt ha, loadAc_eq, readOperand_eq]
  simp only [List.append_assoc, List.cons_append, List.nil_append]

end Sys2Proof.Machine
end

section
/-! PROOFS. NOP and the branches: the words that encode them, what each writes, and the whole cycles
of NOP and BR (spec/43_control.md R182 to R185). -/

namespace Sys2Proof.Machine

variable {s u : State} {a : Nat} {i : Instr}

/-! ### A cycle that completes -/

theorem execute_of_known (hd : decode s.ir = .known i) (hu : exec i s = .next u) :
    execute s = .next (afterExecute u) := by
  simp only [execute, hd, hu]

/-- An enabled cycle on an instruction that neither faults nor waits is fetch, the execute phase and
the end of the cycle, R114. -/
theorem step_of_known (he : cycleEnabled s) (hp : s.pc < Config.memSize)
    (hd : decode (s.mem.read s.pc) = .known i)
    (hu : exec i (fetchDecode (startCycle s)) = .next u)
    (hr : u.rs ≠ .errored) (hi : u.inReq = false) : step s = .next (endCycle u) := by
  have hir : decode (fetchDecode (startCycle s)).ir = .known i := by
    rw [fetchDecode_startCycle_ir, hd]
  rw [step_of_cycleEnabled he, cycle_of_pc_lt hp, execute_of_known hir hu, afterExecute_ends hr hi]

theorem fetchDecode_startCycle_rs (h : cycleEnabled s) :
    (fetchDecode (startCycle s)).rs = .running := by
  rw [fetchDecode_startCycle h]

theorem fetchDecode_startCycle_inReq (h : cycleEnabled s) :
    (fetchDecode (startCycle s)).inReq = false := by
  rw [fetchDecode_startCycle h]
  exact h.2

/-! ### The off-end check at the end of a cycle, R116 -/

theorem endCycle_inside (hp : s.pc < s.progEnd) :
    (endCycle s).rs = s.rs ∧ (endCycle s).cause = s.cause := by
  rcases endCycle_cases s with ⟨-, hoff, -⟩ | ⟨-, h⟩
  · exact absurd hp (Nat.not_lt.mpr hoff)
  · rw [h]
    exact ⟨rfl, rfl⟩

theorem endCycle_offEnd (hr : s.rs = .running) (hp : s.progEnd ≤ s.pc) :
    (endCycle s).rs = .halted ∧ (endCycle s).cause = .outOfProgram := by
  rcases endCycle_cases s with ⟨-, -, h⟩ | ⟨hin, -⟩
  · rw [h]
    exact ⟨rfl, rfl⟩
  · exact absurd ⟨hr, hp⟩ hin

/-! ### The execute phases -/

theorem exec_nop (a : Nat) (s : State) : exec (.nop a) s = .next s := rfl

/-- A branch writes PC and shows the write, and nothing else. -/
theorem writePc_eq (a : Nat) (s : State) :
    writePc a s = { s with pc := a, trace := s.trace ++ [.reg .pc a] } := rfl

theorem exec_br_of_lt (ha : a < Config.memSize) (s : State) :
    exec (.br a) s = .next (writePc a s) :=
  checkedAddress_of_lt ha _

theorem exec_brz_of_lt (ha : a < Config.memSize) (s : State) :
    exec (.brz a) s = .next (if s.ac = 0 then writePc a s else s) :=
  checkedAddress_of_lt ha _

theorem exec_brp_of_lt (ha : a < Config.memSize) (s : State) :
    exec (.brp a) s = .next (if 0 ≤ s.ac then writePc a s else s) :=
  checkedAddress_of_lt ha _

/-! ### The whole cycles of NOP and BR -/

theorem step_nop (he : cycleEnabled s) (hp : s.pc < Config.memSize)
    (hd : decode (s.mem.read s.pc) = .known (.nop a)) :
    step s = .next (endCycle (fetchDecode (startCycle s))) :=
  step_of_known he hp hd (exec_nop a _) (by simp [fetchDecode_startCycle_rs he])
    (fetchDecode_startCycle_inReq he)

/-- The operand that decode gives is an address of the machine, so the BR of a cycle always
branches. -/
theorem step_br (he : cycleEnabled s) (hp : s.pc < Config.memSize)
    (hd : decode (s.mem.read s.pc) = .known (.br a)) :
    step s = .next (endCycle (writePc a (fetchDecode (startCycle s)))) := by
  have ha : a < Config.memSize := by
    simpa [Instr.wellFormed, Instr.operand] using decode_wellFormed hd
  exact step_of_known he hp hd (exec_br_of_lt ha _) (by simp [fetchDecode_startCycle_rs he])
    (fetchDecode_startCycle_inReq he)

/-! ### The statements -/

/-- Settles O14: the row of the digit 4, the empty execute phase, and the cycle around it. -/
theorem nopDoesNothing : Obligations.NopDoesNothing := by
  refine ⟨fun _ hlo hhi => decode_of_hundreds (d := 4) (by decide) hlo hhi, exec_nop,
    fun a s he hp hd => ?_⟩
  rw [step_nop he hp hd, fetchDecode_startCycle he]

/-- Settles O15: the row of the digit 6, the write of PC, and the cycle whose off-end check meets the
target as the new PC. -/
theorem brWritesPc : Obligations.BrWritesPc := by
  refine ⟨fun _ hlo hhi => decode_of_hundreds (d := 6) (by decide) hlo hhi,
    fun a s ha => exec_br_of_lt ha s, fun a s he hp hd => ⟨_, rfl, ?_, ?_, ?_⟩⟩
  · rw [step_br he hp hd, fetchDecode_startCycle he, writePc_eq]
  · exact fun hin => endCycle_inside hin
  · exact fun hoff => endCycle_offEnd rfl hoff

/-- Settles O16: the row of the digit 7, and the branch on AC = 0. -/
theorem brzTestsAcForZero : Obligations.BrzTestsAcForZero := by
  refine ⟨fun _ hlo hhi => decode_of_hundreds (d := 7) (by decide) hlo hhi,
    fun a s ha => ⟨fun hz => ?_, fun hz => ?_⟩⟩
  · rw [exec_brz_of_lt ha, if_pos hz, writePc_eq]
  · rw [exec_brz_of_lt ha, if_neg hz]

/-- Settles O17: the row of the digit 8, and the branch on AC ≥ 0, which −1 does not meet and 0
does. -/
theorem brpTestsAcForNonNegative : Obligations.BrpTestsAcForNonNegative := by
  refine ⟨fun _ hlo hhi => decode_of_hundreds (d := 8) (by decide) hlo hhi,
    fun a s ha => ⟨fun hp => ?_, fun hn => ?_⟩⟩
  · rw [exec_brp_of_lt ha, if_pos hp, writePc_eq]
  · rw [exec_brp_of_lt ha, if_neg (Int.not_le.mpr hn)]

end Sys2Proof.Machine
end

section
/-! PROOFS. OUT: the word that encodes it and what it hands to the output port (spec/44_io.md
R213). -/

namespace Sys2Proof.Machine

/-- The output port takes the word into its record and shows it, and nothing else changes. -/
theorem outputPut_eq (v : Int) (s : State) :
    outputPut v s = { s with outLog := s.outLog ++ [v], trace := s.trace ++ [.output v] } := rfl

theorem exec_out (s : State) : exec .out s = .next (outputPut s.ac s) := rfl

/-- Settles O20: the one word of OUT, and the output port's record and event of AC. -/
theorem outHandsAcToTheOutputPort : Obligations.OutHandsAcToTheOutputPort := by
  refine ⟨decode_eq_out_iff, fun s => ?_⟩
  rw [exec_out, outputPut_eq]

end Sys2Proof.Machine
end

section
/-! PROOFS. The entry into ERRORED: what it writes, and that no cycle follows it
(spec/60_exceptions.md R237). -/

namespace Sys2Proof.Machine

variable {s : State}

@[simp] theorem raiseFault_rs (c : Cause) (ia : Nat) (v : Option Int) (s : State) :
    (raiseFault c ia v s).rs = .errored := by
  rw [raiseFault_eq]

theorem stepReturns_of_errored (h : s.rs = .errored) : stepReturns s = false := by
  rw [stepReturns, h]
  rfl

/-- ERRORED is neither of the two run states in which a cycle is enabled, R110. -/
theorem not_cycleEnabled_of_errored (h : s.rs = .errored) : ¬ cycleEnabled s := by
  rintro ⟨hready | hrunning, -⟩
  · exact absurd (h.symm.trans hready) (by decide)
  · exact absurd (h.symm.trans hrunning) (by decide)

/-- Settles O31: the off-end check passes over a machine that is ERRORED, so the entry writes no more
than its own fields, and a machine that is ERRORED neither runs nor has a cycle enabled. -/
theorem raiseFaultEntersErrored : Obligations.RaiseFaultEntersErrored := by
  intro c ia v s
  have herr : (raiseFault c ia v s).rs = .errored := raiseFault_rs c ia v s
  exact ⟨raiseFault_eq c ia v s, stepReturns_of_errored herr, not_cycleEnabled_of_errored herr⟩

end Sys2Proof.Machine
end

section
/-! PROOFS. The opcode map read both ways: what each word decodes to, and that encode and decode are
inverse (spec/30_encoding.md R83 to R88). -/

namespace Sys2Proof

/-! ### The digits of a word -/

@[simp] theorem digit2_neg (w : Int) : digit2 (-w) = digit2 w := by
  simp [digit2]

@[simp] theorem digits10_neg (w : Int) : digits10 (-w) = digits10 w := by
  simp [digits10]

/-- Every word but the two of format S is read by its digits, R83. -/
theorem decode_formatD {w : Int} (hi : w ≠ 901) (ho : w ≠ 902) :
    decode w = decodeDigit (digit2 w) (digits10 w) := by
  rw [decode, if_neg hi, if_neg ho]

/-- The words with the hundreds digit 9 but the two of format S, R87. -/
theorem decode_nineHundreds {w : Int} (hlo : 900 ≤ w.natAbs) (hhi : w.natAbs ≤ 999)
    (hi : w ≠ 901) (ho : w ≠ 902) : decode w = .unknown (w.natAbs - 900) := by
  have hdigit : digit2 w = 9 := by
    rw [digit2]
    omega
  have hlow : digits10 w = w.natAbs - 900 := by
    rw [digits10]
    omega
  rw [decode_formatD hi ho, hdigit, hlow]
  rfl

/-! ### Encode and decode -/

/-- Decode reads both digits of a canonical word of format D back. -/
theorem decode_encodeDigit {d a : Nat} (hd : d < 9) (ha : a < 100) :
    decode (encodeDigit d a) = decodeDigit d a := by
  have habs : (encodeDigit d a).natAbs = d * 100 + a := by
    rw [encodeDigit, Int.natAbs_natCast, Nat.mod_eq_of_lt ha]
  rw [decode_of_hundreds hd (by omega) (by omega), habs, Nat.add_sub_cancel_left]

/-- The canonical encoding of an instruction is no negative word, R88. -/
theorem encode_nonneg (i : Instr) : 0 ≤ encode i := by
  cases i with
  | inp | out => decide
  | halt a | add a | sub a | store a | nop a | load a | br a | brz a | brp a =>
    exact Int.natCast_nonneg _

/-- Decode inverts encode on every instruction, R88. -/
theorem decode_encode {i : Instr} (hi : i.wellFormed = true) : decode (encode i) = .known i := by
  cases i with
  | inp => rfl
  | out => rfl
  | halt a | add a | sub a | store a | nop a | load a | br a | brz a | brp a =>
    have ha : a < 100 := by simpa [Instr.wellFormed, Instr.operand] using hi
    exact decode_encodeDigit (by decide) ha

/-- Settles O2: the canonical word of each row by the definition of encode, and decode reads its two
fields back. -/
theorem encodeIsCanonicalAndDecodesBack : Obligations.EncodeIsCanonicalAndDecodesBack := by
  refine ⟨fun a => ?_, rfl, rfl, fun i hi => ⟨encode_nonneg i, decode_encode hi⟩⟩
  simp [encode, encodeDigit]

/-- Settles O3: the encoding of what a word of format D decodes to has the word's digits, and three
digits make up a word that is not negative. -/
theorem nonNegativeWordsEncodeBack : Obligations.NonNegativeWordsEncodeBack := by
  intro w i h0 h999 hd
  rcases decode_known hd with ⟨rfl, rfl⟩ | ⟨rfl, rfl⟩ | ⟨-, -, -, -, he⟩
  · rfl
  · rfl
  · rw [he, encodeDigit, digit2, digits10]
    omega

/-- Settles O4: a row of format D for each hundreds digit, then the two words of format S and the
unknown rest of the nine hundreds. -/
theorem opcodeMapIsTotal : Obligations.OpcodeMapIsTotal := by
  intro w hw
  rw [inRange_iff] at hw
  exact ⟨fun hhi => decode_of_hundreds (d := 0) (by decide) (Nat.zero_le _) hhi,
    decode_of_hundreds (d := 1) (by decide), decode_of_hundreds (d := 2) (by decide),
    decode_of_hundreds (d := 3) (by decide), decode_of_hundreds (d := 4) (by decide),
    decode_of_hundreds (d := 5) (by decide), decode_of_hundreds (d := 6) (by decide),
    decode_of_hundreds (d := 7) (by decide), decode_of_hundreds (d := 8) (by decide),
    (decode_eq_inp_iff w).mpr, (decode_eq_out_iff w).mpr,
    fun hlo => decode_nineHundreds hlo (by omega)⟩

/-- The operand of a decoded instruction is the word's two low digits, R84. -/
theorem operand_of_decode {w : Int} {i : Instr} {a : Nat} (hd : decode w = .known i)
    (ha : i.operand = some a) : a = digits10 w := by
  rcases decode_known hd with ⟨-, rfl⟩ | ⟨-, rfl⟩ | ⟨-, -, -, hlow, -⟩
  · cases ha
  · cases ha
  · exact Option.some.inj (ha.symm.trans hlow)

/-- Settles O7: the two low digits are the operand, and they are below 100. -/
theorem operandIsTheTwoLowDigits : Obligations.OperandIsTheTwoLowDigits := by
  intro w i a hd ha
  obtain rfl := operand_of_decode hd ha
  exact ⟨rfl, digits10_lt w⟩

/-- Settles O1: each sample word is read by its digits. -/
theorem sampleWordsDecode : Obligations.SampleWordsDecode := by
  unfold Obligations.SampleWordsDecode
  decide

/-- Settles O6: neither the word nor its negation is of format S, and both have the same digits. -/
theorem decodeIgnoresTheSign : Obligations.DecodeIgnoresTheSign := by
  intro w hi ho
  rw [decode_formatD (w := -w) (by omega) (by omega), decode_formatD (w := w) (by omega) (by omega),
    digit2_neg, digits10_neg]

end Sys2Proof
end

section
/-! PROOFS. Noninterference: no step depends on what the trace port has shown, nor on the flags
(spec/40_cycle.md R124, spec/10_state.md R25). Both follow from one fact: a step of a state with its
trace, or its trace and its flags, masked is the step of the state, but for what is masked. -/

namespace Sys2Proof.Machine

variable {s t : State} {k : Bool}

/-- The state without its trace, and without its flags unless `k` keeps them. -/
def State.masked (k : Bool) (s : State) : State :=
  { s with z := k && s.z, n := k && s.n, trace := [] }

/-- The outcome with its next state masked. -/
def maskOutcome (k : Bool) : Outcome → Outcome
  | .next t => .next (t.masked k)
  | .fault f => .fault f
  | .refused r => .refused r

theorem forgetTrace_eq_maskOutcome (o : Outcome) : forgetTrace o = maskOutcome true o := by
  cases o <;> rfl

theorem forgetFlags_eq_maskOutcome (o : Outcome) : forgetFlags o = maskOutcome false o := by
  cases o <;> rfl

@[simp] theorem masked_pc (k : Bool) (s : State) : (s.masked k).pc = s.pc := rfl
@[simp] theorem masked_ac (k : Bool) (s : State) : (s.masked k).ac = s.ac := rfl
@[simp] theorem masked_rs (k : Bool) (s : State) : (s.masked k).rs = s.rs := rfl
@[simp] theorem masked_inReq (k : Bool) (s : State) : (s.masked k).inReq = s.inReq := rfl
@[simp] theorem masked_progEnd (k : Bool) (s : State) : (s.masked k).progEnd = s.progEnd := rfl
@[simp] theorem masked_answers (k : Bool) (s : State) : (s.masked k).answers = s.answers := rfl

theorem masked_masked (k : Bool) (s : State) : (s.masked k).masked k = s.masked k := by
  cases k <;> rfl

/-! ### The operations in front of and behind the execute phase -/

theorem startCycle_masked (k : Bool) (s : State) :
    (startCycle (s.masked k)).masked k = (startCycle s).masked k := by
  unfold startCycle
  rw [masked_rs]
  split
  · cases k <;> rfl
  · exact masked_masked k s

theorem fetchDecode_masked (k : Bool) (s : State) :
    (fetchDecode (s.masked k)).masked k = (fetchDecode s).masked k := by
  cases k <;> rfl

theorem raiseFault_masked (c : Cause) (ia : Nat) (v : Option Int) (k : Bool) (s : State) :
    (raiseFault c ia v (s.masked k)).masked k = (raiseFault c ia v s).masked k := by
  rw [raiseFault_eq, raiseFault_eq]
  cases k <;> rfl

theorem endCycle_masked (k : Bool) (s : State) :
    (endCycle (s.masked k)).masked k = (endCycle s).masked k := by
  unfold endCycle offEndCheck
  rw [masked_rs, masked_progEnd, masked_pc]
  split <;> cases k <;> rfl

theorem afterExecute_masked (k : Bool) (s : State) :
    (afterExecute (s.masked k)).masked k = (afterExecute s).masked k := by
  unfold afterExecute
  rw [masked_rs, masked_inReq]
  split
  · exact masked_masked k s
  · exact endCycle_masked k s

theorem loadAc_masked (v : Int) (k : Bool) (s : State) :
    (loadAc v (s.masked k)).masked k = (loadAc v s).masked k := by
  cases k <;> rfl

theorem completeInput_masked (x : InputAnswer) (k : Bool) (s : State) :
    (completeInput x (s.masked k)).masked k = (completeInput x s).masked k := by
  cases x with
  | cancel => exact raiseFault_masked _ _ _ k { s with inReq := false }
  | answer v =>
    by_cases hv : InRange v
    · rw [completeInput_accepted hv, completeInput_accepted hv, ← endCycle_masked,
        ← endCycle_masked k (loadAc v { s with inReq := false })]
      exact congrArg (fun u => (endCycle u).masked k) (loadAc_masked v k { s with inReq := false })
    · rw [completeInput_rejected hv, completeInput_rejected hv]
      exact raiseFault_masked _ _ _ k { s with inReq := false }

/-! ### The execute phase -/

theorem readOperand_masked (a : Nat) (k : Bool) (s : State) :
    (readOperand a (s.masked k)).masked k = (readOperand a s).masked k := by
  cases k <;> rfl

theorem commitAc_masked (r : Int) (k : Bool) (s : State) :
    (commitAc r (s.masked k)).masked k = (commitAc r s).masked k := by
  by_cases hr : InRange r
  · rw [commitAc_inRange hr, commitAc_inRange hr, loadAc_masked]
  · rw [commitAc_overflow hr, commitAc_overflow hr]
    exact raiseFault_masked _ _ _ k s

theorem checkedAddress_masked (a : Nat) (h : s.masked k = t.masked k) :
    maskOutcome k (checkedAddress a s) = maskOutcome k (checkedAddress a t) := by
  unfold checkedAddress
  split
  · exact congrArg Host.Outcome.next h
  · rfl

theorem commitAc_readOperand_masked (r : Int) (a : Nat) (k : Bool) (s : State) :
    (commitAc r (readOperand a (s.masked k))).masked k =
      (commitAc r (readOperand a s)).masked k := by
  rw [← commitAc_masked, readOperand_masked, commitAc_masked]

theorem exec_masked (i : Instr) (k : Bool) (s : State) :
    maskOutcome k (exec i (s.masked k)) = maskOutcome k (exec i s) := by
  cases i with
  | halt a | inp | out => cases k <;> rfl
  | nop a => exact congrArg Host.Outcome.next (masked_masked k s)
  | add a | sub a => exact checkedAddress_masked a (commitAc_readOperand_masked _ a k s)
  | load a =>
    refine checkedAddress_masked a ?_
    rw [← loadAc_masked, readOperand_masked, loadAc_masked]
    rfl
  | store a | br a => exact checkedAddress_masked a (by cases k <;> rfl)
  | brz a | brp a =>
    refine checkedAddress_masked a ?_
    rw [masked_ac]
    split
    · cases k <;> rfl
    · exact masked_masked k s

/-! ### The cycle and the step -/

/-- What a cycle makes of the outcome of its execute phase, R114. -/
def finishCycle : Outcome → Outcome
  | .next t => .next (afterExecute t)
  | .fault f => .fault f
  | .refused r => .refused r

theorem execute_known_eq {i : Instr} (hd : decode s.ir = .known i) :
    execute s = finishCycle (exec i s) := by
  cases he : exec i s <;> simp only [execute, hd, he, finishCycle]

theorem finishCycle_masked (k : Bool) (o : Outcome) :
    maskOutcome k (finishCycle (maskOutcome k o)) = maskOutcome k (finishCycle o) := by
  cases o with
  | next t => exact congrArg Host.Outcome.next (afterExecute_masked k t)
  | fault f => rfl
  | refused r => rfl

theorem execute_masked (k : Bool) (s : State) :
    maskOutcome k (execute (s.masked k)) = maskOutcome k (execute s) := by
  cases hd : decode s.ir with
  | unknown a =>
    rw [execute_of_unknown hd, execute_of_unknown (s := s.masked k) hd]
    exact congrArg Host.Outcome.next (raiseFault_masked _ _ _ k s)
  | known i =>
    rw [execute_known_eq hd, execute_known_eq (s := s.masked k) hd, ← finishCycle_masked,
      exec_masked, finishCycle_masked]

theorem cycle_masked (k : Bool) (s : State) :
    maskOutcome k (cycle (s.masked k)) = maskOutcome k (cycle s) := by
  unfold cycle
  rw [masked_pc]
  split
  · rw [← execute_masked, ← fetchDecode_masked, startCycle_masked, fetchDecode_masked,
      execute_masked]
  · refine congrArg Host.Outcome.next ?_
    unfold boundsFault
    rw [← raiseFault_masked, startCycle_masked, raiseFault_masked, startCycle_pc, startCycle_pc,
      masked_pc]

theorem cycleStep_masked (k : Bool) (s : State) :
    maskOutcome k (cycleStep (s.masked k)) = maskOutcome k (cycleStep s) := by
  unfold cycleStep
  rw [masked_inReq, masked_rs]
  split
  · rfl
  · split
    · rfl
    · rfl
    · exact cycle_masked k s
    · exact cycle_masked k s

theorem resumeInput_masked (k : Bool) (s : State) :
    maskOutcome k (resumeInput (s.masked k)) = maskOutcome k (resumeInput s) := by
  unfold resumeInput
  rw [masked_answers]
  split
  · rfl
  · next x rest _ =>
    exact congrArg Host.Outcome.next (completeInput_masked x k { s with answers := rest })

/-- A step does the same on a masked state, but for what is masked. -/
theorem step_masked (k : Bool) (s : State) :
    maskOutcome k (step (s.masked k)) = maskOutcome k (step s) := by
  unfold step
  rw [masked_inReq]
  split
  · exact resumeInput_masked k s
  · exact cycleStep_masked k s

/-- Two states that differ in what is masked make the same step, but for it. -/
theorem step_of_masked_eq (h : s.masked k = t.masked k) :
    maskOutcome k (step s) = maskOutcome k (step t) := by
  rw [← step_masked, h, step_masked]

/-- Settles O47: the two states are one where the trace is masked. -/
theorem tracePortHasNoEffect : Obligations.TracePortHasNoEffect := by
  intro s events
  rw [forgetTrace_eq_maskOutcome, forgetTrace_eq_maskOutcome]
  exact step_of_masked_eq rfl

/-- Settles O48: the two states are one where the trace and the flags are masked. -/
theorem flagsHaveNoEffect : Obligations.FlagsHaveNoEffect := by
  intro s z n
  rw [forgetFlags_eq_maskOutcome, forgetFlags_eq_maskOutcome]
  exact step_of_masked_eq rfl

end Sys2Proof.Machine
end

section
/-! PROOFS. The execute phases of ADD, SUB, HALT and IN, the frame of every execute phase
(spec/10_state.md R37), and the terms that are no instruction (spec/20_memory.md R54). -/

namespace Sys2Proof.Machine

variable {a : Nat} {s t : State} {i : Instr} {r : Int}

/-! ### ADD and SUB -/

theorem exec_add_of_lt (ha : a < Config.memSize) (s : State) :
    exec (.add a) s = .next (commitAc (s.ac + s.mem.read a) (readOperand a s)) :=
  checkedAddress_of_lt ha _

theorem exec_sub_of_lt (ha : a < Config.memSize) (s : State) :
    exec (.sub a) s = .next (commitAc (s.ac - s.mem.read a) (readOperand a s)) :=
  checkedAddress_of_lt ha _

/-- An ALU result in range is written to AC with its flags, R141 and R142. -/
theorem commitAc_readOperand_inRange (hr : InRange r) (a : Nat) (s : State) :
    commitAc r (readOperand a s) =
      { s with
        mar := a
        mbr := s.mem.read a
        ac := r
        z := decide (r = 0)
        n := decide (r < 0)
        trace := s.trace ++
          [.reg .mar a, .memRead a, .reg .mbr (s.mem.read a), .reg .ac r,
            .flags (decide (r = 0)) (decide (r < 0))] } := by
  rw [commitAc_inRange hr, loadAc_eq, readOperand_eq]
  simp only [List.append_assoc, List.cons_append, List.nil_append]

/-- An ALU result out of range raises OVERFLOW after the operand fetch, R232. -/
theorem commitAc_readOperand_overflow (hr : ¬ InRange r) (a : Nat) (s : State) :
    commitAc r (readOperand a s) =
      { s with
        mar := a
        mbr := s.mem.read a
        rs := .errored
        cause := .overflow
        cyc := s.cyc + 1
        trace := s.trace ++
          [.reg .mar a, .memRead a, .reg .mbr (s.mem.read a),
            .error .overflow (s.pc - 1) s.ir (some r), .runState .errored,
            .cycle (s.cyc + 1)] } := by
  rw [commitAc_overflow hr, raiseFault_eq, readOperand_eq]
  simp only [instrAddr, List.append_assoc, List.cons_append, List.nil_append]

/-- Settles O8: the sum is written or raises OVERFLOW by the one range check. -/
theorem addWritesSumOrOverflows : Obligations.AddWritesSumOrOverflows := by
  refine fun a s ha => ⟨fun hr => ?_, fun hr => ?_⟩
  · rw [exec_add_of_lt ha, commitAc_readOperand_inRange hr]
  · rw [exec_add_of_lt ha, commitAc_readOperand_overflow hr]

/-- Settles O9: the difference is written or raises OVERFLOW by the one range check. -/
theorem subWritesDifferenceOrOverflows : Obligations.SubWritesDifferenceOrOverflows := by
  refine fun a s ha => ⟨fun hr => ?_, fun hr => ?_⟩
  · rw [exec_sub_of_lt ha, commitAc_readOperand_inRange hr]
  · rw [exec_sub_of_lt ha, commitAc_readOperand_overflow hr]

/-- Settles O26: ADD leaves the memory, so SUB takes away the word ADD added, and what is left is
the first AC, which is in range. -/
theorem subUndoesAdd : Obligations.SubUndoesAdd := by
  intro a s ha hac hsum
  have hback : s.ac + s.mem.read a - s.mem.read a = s.ac := add_sub_cancel_right _ _
  refine ⟨_, _, exec_add_of_lt ha s, exec_sub_of_lt ha _, ?_⟩
  rw [commitAc_readOperand_inRange hsum, hback, commitAc_readOperand_inRange hac]
  exact ⟨rfl, rfl, rfl⟩

/-! ### HALT and IN -/

theorem exec_halt (a : Nat) (s : State) : exec (.halt a) s = .next (setRunState .halted s) := rfl

theorem exec_inp (s : State) : exec .inp s = .next { s with inReq := true } := rfl

/-- Settles O12: the row of the digit 0, and the write of RS. -/
theorem haltStopsTheMachine : Obligations.HaltStopsTheMachine :=
  ⟨fun _ hhi => decode_of_hundreds (d := 0) (by decide) (Nat.zero_le _) hhi, exec_halt⟩

/-- Settles O18: the execute phase of IN is the request. -/
theorem inRaisesTheRequest : Obligations.InRaisesTheRequest := exec_inp

/-! ### Terms that are no instruction -/

/-- Settles O24: each of the seven checks its operand before it does anything. -/
theorem illFormedAddressStops : Obligations.IllFormedAddressStops := by
  intro a s ha
  exact ⟨checkedAddress_of_ge ha _, checkedAddress_of_ge ha _, checkedAddress_of_ge ha _,
    checkedAddress_of_ge ha _, checkedAddress_of_ge ha _, checkedAddress_of_ge ha _,
    checkedAddress_of_ge ha _⟩

/-! ### The frame of the execute phase -/

/-- Settles O25: the state that each instruction leaves, compared with the one it starts in. -/
theorem executeWritesOnlyItsTableRow : Obligations.ExecuteWritesOnlyItsTableRow := by
  intro i s t h
  rcases exec_cases h with ⟨a, rfl, rfl⟩ | ⟨a, rfl, rfl⟩ | ⟨a, rfl, -, rfl⟩ | ⟨a, r, -, hi, rfl⟩ |
    ⟨a, r, -, hi, -, rfl⟩ | ⟨a, -, hi, rfl⟩ | ⟨a, -, hi, rfl⟩ | ⟨rfl, rfl⟩ | ⟨rfl, rfl⟩
  · simp
  · simp
  · simpa using fun b (hb : b ≠ a) => Memory.read_write_other s.mem s.ac hb
  · rcases hi with ⟨rfl, -⟩ | ⟨rfl, -⟩ | ⟨rfl, -⟩ <;> simp
  · rcases hi with ⟨rfl, -⟩ | ⟨rfl, -⟩ <;> simp
  · rcases hi with rfl | ⟨rfl, -⟩ | ⟨rfl, -⟩ <;> simp
  · rcases hi with ⟨rfl, -⟩ | ⟨rfl, -⟩ <;> simp
  · simp
  · simp

end Sys2Proof.Machine
end

section
/-! PROOFS. Whole cycles: the cycle around the execute phase, the end of a cycle, and the fetch from
outside the memory (spec/40_cycle.md R112 to R118). -/

namespace Sys2Proof.Machine

variable {s u : State} {i : Instr}

/-- An enabled cycle on an instruction is fetch, the execute phase and what follows it, R118. -/
theorem step_known (he : cycleEnabled s) (hp : s.pc < Config.memSize)
    (hd : decode (s.mem.read s.pc) = .known i)
    (hu : exec i (fetchDecode (startCycle s)) = .next u) : step s = .next (afterExecute u) := by
  have hir : decode (fetchDecode (startCycle s)).ir = .known i := by
    rw [fetchDecode_startCycle_ir, hd]
  rw [step_of_cycleEnabled he, cycle_of_pc_lt hp, execute_of_known hir hu]

/-- Settles O27: decode gives only instructions, which have a next state, and the cycle ends unless
it ended in the execute phase or waits. -/
theorem stepRunsDecodedInstruction : Obligations.StepRunsDecodedInstruction := by
  intro s i he hp hd
  obtain ⟨u, hu⟩ := exec_of_wellFormed (decode_wellFormed hd) (fetchDecode (startCycle s))
  have hstep := step_known he hp hd hu
  rw [fetchDecode_startCycle he] at hu
  exact ⟨u, _, hu, hstep, afterExecute_skips, afterExecute_ends⟩

/-- The off-end check passes over a machine that is not RUNNING, R116. -/
theorem endCycle_of_not_running (hr : s.rs ≠ .running) :
    endCycle s = { s with cyc := s.cyc + 1, trace := s.trace ++ [.cycle (s.cyc + 1)] } := by
  rcases endCycle_cases s with ⟨hrun, -, -⟩ | ⟨-, h⟩
  · exact absurd hrun hr
  · exact h

/-- Settles O28: the off-end check fires or not. -/
theorem endCycleChecksTheProgramEnd : Obligations.EndCycleChecksTheProgramEnd := by
  intro s
  rcases endCycle_cases s with ⟨hr, hp, h⟩ | ⟨hin, h⟩
  · exact ⟨fun _ => h, fun hin => absurd ⟨hr, hp⟩ hin⟩
  · exact ⟨fun hoff => absurd hoff hin, fun _ => h⟩

/-- Settles O13: the word is of the row of HALT, whose execute phase leaves RUNNING, so the off-end
check does not fire. -/
theorem haltCycleSkipsTheOffEndCheck : Obligations.HaltCycleSkipsTheOffEndCheck := by
  intro s he hp hw
  have hd := haltStopsTheMachine.1 (s.mem.read s.pc) hw
  have hi : (setRunState .halted (fetchDecode (startCycle s))).inReq = false :=
    fetchDecode_startCycle_inReq he
  rw [step_of_known he hp hd (exec_halt _ _) (by simp) hi,
    endCycle_of_not_running (by simp), fetchDecode_startCycle he]
  simp [setRunState, emit]

/-- Settles O19: IN raises the request, so its cycle does not end, and no cycle is enabled while the
request is pending. -/
theorem inCycleIsSuspended : Obligations.InCycleIsSuspended := by
  intro s he hp hw
  have hd : decode (s.mem.read s.pc) = .known .inp := (decode_eq_inp_iff _).mpr hw
  refine ⟨_, rfl, ?_, rfl⟩
  rw [step_known he hp hd (exec_inp _), afterExecute_skips (.inr rfl), fetchDecode_startCycle he,
    hw]

/-- Settles O30: of what a cycle can do, only the bounds fault has PC at 100 or above. -/
theorem fetchOutsideMemoryRaisesBounds : Obligations.FetchOutsideMemoryRaisesBounds := by
  intro s he hp
  obtain ⟨t, ht⟩ := cycle_total s
  rw [step_of_cycleEnabled he, ht]
  rcases cycle_outcomes he ht with ⟨-, rfl⟩ | ⟨hlt, -⟩ | ⟨hlt, -⟩
  · rfl
  · exact absurd hp (Nat.not_le.mpr hlt)
  · exact absurd hp (Nat.not_le.mpr hlt)

end Sys2Proof.Machine
end

section
/-! PROOFS. The completion of a waiting IN, by the host or by the next answer queued
(spec/44_io.md R212, spec/60_exceptions.md R234). -/

namespace Sys2Proof.Machine

variable {s t : State}

theorem hostAct_input (hi : s.inReq = true) (x : InputAnswer) :
    hostAct (.input x) s = .next (completeInput x s) := by
  simp only [hostAct, hi, if_true]

/-- The completion of an IN does not touch the answers to come. -/
theorem completeInput_answers (x : InputAnswer) (xs : List InputAnswer) (s : State) :
    completeInput x { s with answers := xs } = { completeInput x s with answers := xs } := by
  cases x with
  | cancel => rw [completeInput_cancelled, completeInput_cancelled, raiseFault_eq, raiseFault_eq]
  | answer v =>
    by_cases hv : InRange v
    · rw [completeInput_accepted hv, completeInput_accepted hv, ← endCycle_answers]
      rfl
    · rw [completeInput_rejected hv, completeInput_rejected hv, raiseFault_eq, raiseFault_eq]

/-- A step where an IN waits and an answer is queued completes the IN with it, log entry 5. -/
theorem step_answered (hi : s.inReq = true) (x : InputAnswer) (rest : List InputAnswer) :
    step { s with answers := x :: rest } =
      .next { completeInput x s with answers := rest } := by
  rw [← completeInput_answers]
  simp only [step, hi, if_true, resumeInput]

/-- Settles O21: the completion with an answer in range, by the host and by the queue. -/
theorem inputAnswerInRangeIsAccepted : Obligations.InputAnswerInRangeIsAccepted := by
  intro v rest s hi hv
  have heq := completeInput_accepted hv s
  rw [loadAc_eq] at heq
  exact ⟨_, heq, hostAct_input hi _, step_answered hi _ rest⟩

/-- Settles O22: the completion with an answer out of range, by the host and by the queue. -/
theorem inputAnswerOutOfRangeOverflows : Obligations.InputAnswerOutOfRangeOverflows := by
  intro v rest s hi hv
  have heq := completeInput_rejected hv s
  rw [raiseFault_eq] at heq
  exact ⟨_, heq, hostAct_input hi _, step_answered hi _ rest⟩

end Sys2Proof.Machine
end

section
/-! PROOFS. Which host commands move the machine: where a cycle is enabled, that the terminal states
are left only by reset, and what reset leaves (spec/40_cycle.md R110, spec/60_exceptions.md R240,
spec/70_reset_and_hazards.md R270). -/

namespace Sys2Proof.Machine

variable {s t : State}

/-! ### Reset -/

/-- Settles O56: reset writes every field but the trace. -/
theorem resetIsAcceptedInEveryState : Obligations.ResetIsAcceptedInEveryState := fun _ => rfl

/-- Settles O55: each value as the reset state is given, and an empty memory reads 0. -/
theorem resetLeavesTheseValues : Obligations.ResetLeavesTheseValues :=
  ⟨rfl, rfl, rfl, rfl, rfl, rfl, rfl, rfl, rfl, rfl, rfl, rfl, Memory.read_nil, rfl, rfl, rfl⟩

/-! ### Where a cycle is enabled -/

theorem cycleStep_of_cycleEnabled (h : cycleEnabled s) : cycleStep s = cycle s := by
  obtain ⟨hr | hr, hi⟩ := h <;> simp [cycleStep, hr, hi]

/-- The host's cycle has a next state exactly where one is enabled, R110. -/
theorem cycleStep_next_iff : (∃ t, cycleStep s = .next t) ↔ cycleEnabled s := by
  constructor
  · rintro ⟨t, ht⟩
    exact (cycleStep_cases ht).1
  · intro h
    rw [cycleStep_of_cycleEnabled h]
    exact cycle_total s

/-- A step has a next state exactly where a cycle is enabled or an answer to a waiting IN is
queued. -/
theorem step_next_iff :
    (∃ t, step s = .next t) ↔ cycleEnabled s ∨ (s.inReq = true ∧ s.answers ≠ []) := by
  constructor
  · rintro ⟨t, ht⟩
    rcases step_cases ht with ⟨hi, x, rest, hx, -⟩ | ⟨he, -⟩
    · exact .inr ⟨hi, by simp [hx]⟩
    · exact .inl he
  · rintro (he | ⟨hi, ha⟩)
    · rw [step_of_cycleEnabled he]
      exact cycle_total s
    · obtain ⟨x, rest, hx⟩ := List.exists_cons_of_ne_nil ha
      have hstep := step_answered hi x rest
      rw [← hx] at hstep
      exact ⟨_, hstep⟩

/-! ### Where no cycle is enabled -/

/-- Where neither a cycle nor a load is enabled, only reset and an input answer change the state: a
run is refused too, and pacing changes nothing. -/
theorem hostAct_of_not_cycleEnabled {act : HostAction} (hc : ¬ cycleEnabled s)
    (hl : ¬ loadable s) (h : hostAct act s = .next t) (ht : t ≠ s) :
    act = .reset ∨ ∃ x, act = .input x := by
  cases act with
  | cycle => exact absurd (cycleStep_cases h).1 hc
  | singleStep => exact absurd (cycleStep_cases h).1 hc
  | run k =>
    rw [hostAct, if_neg hc] at h
    cases h
  | pause =>
    cases h
    exact absurd rfl ht
  | setRate r =>
    cases h
    exact absurd rfl ht
  | input x => exact .inr ⟨x, rfl⟩
  | reset => exact .inl rfl
  | load image pe => exact absurd (load_cases h).1 hl

/-- Settles O32: the two conditions, and that a pending request enables neither a cycle nor a
load. -/
theorem cycleIsEnabledExactlyWhenItMayRun : Obligations.CycleIsEnabledExactlyWhenItMayRun := by
  refine ⟨fun s => cycleStep_next_iff, fun s => step_next_iff, fun s t act hi h ht => ?_⟩
  have hc : ¬ cycleEnabled s := by simp [cycleEnabled, hi]
  have hl : ¬ loadable s := by simp [loadable, hi]
  exact hostAct_of_not_cycleEnabled hc hl h ht

theorem hostAct_input_idle (hi : s.inReq = false) (x : InputAnswer) :
    hostAct (.input x) s = .refused .noInputRequest := by
  simp [hostAct, hi]

/-- In a state with the invariant that has ended, no input request is pending, R33. -/
theorem State.Inv.inReq_of_ended (h : s.Inv) (he : s.ended) : s.inReq = false := by
  by_contra hi
  have hrun := (h.waiting (by simpa using hi)).1
  rcases he with hr | hr <;> simp [hr] at hrun

/-- Settles O33: no request is pending in a terminal state, so neither a cycle nor an answer is
enabled in it. -/
theorem terminalStatesAreLeftOnlyByReset : Obligations.TerminalStatesAreLeftOnlyByReset := by
  intro s hinv hend
  have hi := hinv.inReq_of_ended hend
  have hc : ¬ cycleEnabled s := by
    rintro ⟨hr, -⟩
    rcases hend with h | h <;> simp [h] at hr
  have hl : ¬ loadable s := fun h => hc ⟨.inl h.1, hi⟩
  refine ⟨fun hr => ?_, fun hr => ?_, fun act t h hne => ?_, resetIsAcceptedInEveryState s⟩
  · simp [step, cycleStep, hi, hr]
  · simp [step, cycleStep, hi, hr]
  · by_contra ht
    rcases hostAct_of_not_cycleEnabled hc hl h ht with hreset | ⟨x, rfl⟩
    · exact hne hreset
    · rw [hostAct_input_idle hi] at h
      cases h

end Sys2Proof.Machine
end

section
/-! PROOFS. Everything a step can do, field by field: which step writes which field, and with what
(spec/10_state.md R37). The statements about single fields follow from it. -/

namespace Sys2Proof.Machine

variable {s t u : State} {i : Instr}

/-! ### The four outcomes of a step -/

/-- The state an enabled cycle starts in, R111. -/
def State.started (s : State) : State :=
  { s with rs := .running, trace := s.trace ++ startEvents s }

/-- The state the execute phase of an enabled cycle starts in, R113. -/
def State.fetched (s : State) : State :=
  { s with
    pc := s.pc + 1
    mar := s.pc
    mbr := s.mem.read s.pc
    ir := s.mem.read s.pc
    rs := .running
    trace := s.trace ++ startEvents s ++ fetchEvents s }

theorem startCycle_eq_started (h : cycleEnabled s) : startCycle s = s.started := by
  rcases startCycle_cases s with ⟨hr, hs⟩ | ⟨hr, hs⟩
  · rw [hs]
    simp [State.started, startEvents, hr]
  · have hrun : s.rs = .running := h.1.resolve_left hr
    rw [hs]
    simp [State.started, startEvents, hr, ← hrun]

theorem fetchDecode_startCycle_eq_fetched (h : cycleEnabled s) :
    fetchDecode (startCycle s) = s.fetched :=
  fetchDecode_startCycle h

/-- What a step can do: complete a waiting IN with the next answer queued, raise BOUNDS, raise
UNKNOWN_OPCODE after fetch, or run the instruction at PC. -/
theorem step_outcomes (h : step s = .next t) :
    (s.inReq = true ∧ ∃ x rest, s.answers = x :: rest ∧
      t = completeInput x { s with answers := rest }) ∨
    (cycleEnabled s ∧ 100 ≤ s.pc ∧ t = boundsFault s.started) ∨
    (cycleEnabled s ∧ s.pc < 100 ∧ ∃ a, decode (s.mem.read s.pc) = .unknown a ∧
      t = unknownOpcode s.fetched) ∨
    (cycleEnabled s ∧ s.pc < 100 ∧ ∃ i u, decode (s.mem.read s.pc) = .known i ∧
      exec i s.fetched = .next u ∧ t = afterExecute u) := by
  rcases step_cases h with hin | ⟨he, hc⟩
  · exact .inl hin
  · have hcases := cycle_cases hc
    rw [fetchDecode_startCycle_eq_fetched he, startCycle_eq_started he] at hcases
    rcases hcases with ⟨hp, ht⟩ | ⟨hp, hu⟩ | ⟨hp, hk⟩
    · exact .inr (.inl ⟨he, hp, ht⟩)
    · exact .inr (.inr (.inl ⟨he, hp, hu⟩))
    · exact .inr (.inr (.inr ⟨he, hp, hk⟩))

/-- A step where the word at PC decodes to an instruction runs it. -/
theorem step_outcome_known (he : cycleEnabled s) (hp : s.pc < 100)
    (hd : decode (s.mem.read s.pc) = .known i) (h : step s = .next t) :
    ∃ u, exec i s.fetched = .next u ∧ t = afterExecute u := by
  obtain ⟨u, hu⟩ := exec_of_wellFormed (decode_wellFormed hd) s.fetched
  rw [← fetchDecode_startCycle_eq_fetched he] at hu
  rw [step_known he hp hd hu] at h
  cases h
  exact ⟨u, by rw [← fetchDecode_startCycle_eq_fetched he, hu], rfl⟩

theorem not_cycleEnabled_of_inReq (h : s.inReq = true) : ¬ cycleEnabled s := by
  simp [cycleEnabled, h]

/-! ### What the fetched state, the two faults of a cycle and its end leave unchanged -/

@[simp] theorem fetched_pc (s : State) : s.fetched.pc = s.pc + 1 := rfl
@[simp] theorem fetched_ac (s : State) : s.fetched.ac = s.ac := rfl
@[simp] theorem fetched_ir (s : State) : s.fetched.ir = s.mem.read s.pc := rfl
@[simp] theorem fetched_z (s : State) : s.fetched.z = s.z := rfl
@[simp] theorem fetched_n (s : State) : s.fetched.n = s.n := rfl
@[simp] theorem fetched_rs (s : State) : s.fetched.rs = .running := rfl
@[simp] theorem fetched_cause (s : State) : s.fetched.cause = s.cause := rfl
@[simp] theorem fetched_cyc (s : State) : s.fetched.cyc = s.cyc := rfl
@[simp] theorem fetched_inReq (s : State) : s.fetched.inReq = s.inReq := rfl
@[simp] theorem fetched_progEnd (s : State) : s.fetched.progEnd = s.progEnd := rfl
@[simp] theorem fetched_mem (s : State) : s.fetched.mem = s.mem := rfl
@[simp] theorem fetched_outLog (s : State) : s.fetched.outLog = s.outLog := rfl
@[simp] theorem fetched_trace (s : State) :
    s.fetched.trace = s.trace ++ startEvents s ++ fetchEvents s := rfl
@[simp] theorem fetched_answers (s : State) : s.fetched.answers = s.answers := rfl

/-- BOUNDS, of the state before the cycle, R112. -/
theorem boundsFault_started (s : State) :
    boundsFault s.started =
      { s with
        rs := .errored
        cause := .bounds
        cyc := s.cyc + 1
        trace := s.trace ++ startEvents s ++
          [.error .bounds s.pc s.ir (some (s.pc : Int)), .runState .errored,
            .cycle (s.cyc + 1)] } := by
  rw [boundsFault, raiseFault_eq]
  rfl

/-- UNKNOWN_OPCODE, of the fetched state, R115. -/
theorem unknownOpcode_eq (s : State) :
    unknownOpcode s =
      { s with
        rs := .errored
        cause := .unknownOpcode
        cyc := s.cyc + 1
        trace := s.trace ++
          [.error .unknownOpcode (s.pc - 1) s.ir (some s.ir), .runState .errored,
            .cycle (s.cyc + 1)] } :=
  raiseFault_eq ..

/-- What follows the execute phase writes RS, CAUSE, CYC and the trace only. -/
theorem afterExecute_frame (u : State) : ∃ rs cause cyc trace,
    afterExecute u = { u with rs := rs, cause := cause, cyc := cyc, trace := trace } := by
  rcases afterExecute_cases u with ⟨-, h⟩ | ⟨-, -, -, h⟩ | ⟨-, -, -, h⟩ <;>
    exact ⟨_, _, _, _, h⟩

@[simp] theorem afterExecute_pc (u : State) : (afterExecute u).pc = u.pc := by
  obtain ⟨_, _, _, _, h⟩ := afterExecute_frame u
  rw [h]

@[simp] theorem afterExecute_ac (u : State) : (afterExecute u).ac = u.ac := by
  obtain ⟨_, _, _, _, h⟩ := afterExecute_frame u
  rw [h]

@[simp] theorem afterExecute_ir (u : State) : (afterExecute u).ir = u.ir := by
  obtain ⟨_, _, _, _, h⟩ := afterExecute_frame u
  rw [h]

@[simp] theorem afterExecute_z (u : State) : (afterExecute u).z = u.z := by
  obtain ⟨_, _, _, _, h⟩ := afterExecute_frame u
  rw [h]

@[simp] theorem afterExecute_n (u : State) : (afterExecute u).n = u.n := by
  obtain ⟨_, _, _, _, h⟩ := afterExecute_frame u
  rw [h]

@[simp] theorem afterExecute_inReq (u : State) : (afterExecute u).inReq = u.inReq := by
  obtain ⟨_, _, _, _, h⟩ := afterExecute_frame u
  rw [h]

@[simp] theorem afterExecute_progEnd (u : State) : (afterExecute u).progEnd = u.progEnd := by
  obtain ⟨_, _, _, _, h⟩ := afterExecute_frame u
  rw [h]

@[simp] theorem afterExecute_mem (u : State) : (afterExecute u).mem = u.mem := by
  obtain ⟨_, _, _, _, h⟩ := afterExecute_frame u
  rw [h]

@[simp] theorem afterExecute_outLog (u : State) : (afterExecute u).outLog = u.outLog := by
  obtain ⟨_, _, _, _, h⟩ := afterExecute_frame u
  rw [h]

/-- The completion of an IN leaves every field of fetch, the memory and the output record. -/
theorem completeInput_frame (x : InputAnswer) (s : State) : ∃ ac z n rs cause cyc trace,
    completeInput x s =
      { s with
        ac := ac, z := z, n := n, rs := rs, cause := cause, cyc := cyc, inReq := false
        trace := trace } := by
  rcases completeInput_outcomes x s with ⟨-, h⟩ | ⟨v, -, -, h⟩ | ⟨v, -, -, -, -, h⟩ |
    ⟨v, -, -, -, h⟩ <;>
    exact ⟨_, _, _, _, _, _, _, h⟩

@[simp] theorem completeInput_pc (x : InputAnswer) (s : State) : (completeInput x s).pc = s.pc := by
  obtain ⟨_, _, _, _, _, _, _, h⟩ := completeInput_frame x s
  rw [h]

@[simp] theorem completeInput_ir (x : InputAnswer) (s : State) : (completeInput x s).ir = s.ir := by
  obtain ⟨_, _, _, _, _, _, _, h⟩ := completeInput_frame x s
  rw [h]

@[simp] theorem completeInput_inReq (x : InputAnswer) (s : State) :
    (completeInput x s).inReq = false := by
  obtain ⟨_, _, _, _, _, _, _, h⟩ := completeInput_frame x s
  rw [h]

@[simp] theorem completeInput_progEnd (x : InputAnswer) (s : State) :
    (completeInput x s).progEnd = s.progEnd := by
  obtain ⟨_, _, _, _, _, _, _, h⟩ := completeInput_frame x s
  rw [h]

@[simp] theorem completeInput_mem (x : InputAnswer) (s : State) :
    (completeInput x s).mem = s.mem := by
  obtain ⟨_, _, _, _, _, _, _, h⟩ := completeInput_frame x s
  rw [h]

@[simp] theorem completeInput_outLog (x : InputAnswer) (s : State) :
    (completeInput x s).outLog = s.outLog := by
  obtain ⟨_, _, _, _, _, _, _, h⟩ := completeInput_frame x s
  rw [h]

/-! ### What the execute phase does to each field -/

/-- No execute phase writes IR, PROG_END or the answers to come. -/
theorem exec_untouched (h : exec i s = .next u) :
    u.ir = s.ir ∧ u.progEnd = s.progEnd ∧ u.answers = s.answers :=
  (executeWritesOnlyItsTableRow i s u h).1

/-- Where an execute phase leaves PC, R180. -/
def nextPc (i : Instr) (s : State) : Nat :=
  match i with
  | .br a => a
  | .brz a => if s.ac = 0 then a else s.pc
  | .brp a => if 0 ≤ s.ac then a else s.pc
  | .halt _ | .add _ | .sub _ | .store _ | .nop _ | .load _ | .inp | .out => s.pc

theorem exec_pc (h : exec i s = .next u) : u.pc = nextPc i s := by
  obtain ⟨-, -, -, hpc, -⟩ := executeWritesOnlyItsTableRow i s u h
  cases i with
  | br a =>
    obtain ⟨-, rfl⟩ := execBr_cases h
    rfl
  | brz a =>
    obtain ⟨-, rfl⟩ := execBrz_cases h
    exact apply_ite State.pc ..
  | brp a =>
    obtain ⟨-, rfl⟩ := execBrp_cases h
    exact apply_ite State.pc ..
  | halt a | add a | sub a | store a | nop a | load a | inp | out => exact hpc (by simp)

/-- Only STORE writes memory, R53. -/
theorem exec_mem (h : exec i s = .next u) :
    u.mem = s.mem ∨ ∃ a, i = .store a ∧ a < 100 ∧ u.mem = s.mem.write a s.ac := by
  rcases exec_cases h with ⟨a, -, rfl⟩ | ⟨a, -, rfl⟩ | ⟨a, rfl, ha, rfl⟩ | ⟨a, r, -, -, rfl⟩ |
    ⟨a, r, -, -, -, rfl⟩ | ⟨a, -, -, rfl⟩ | ⟨a, -, -, rfl⟩ | ⟨-, rfl⟩ | ⟨-, rfl⟩
  · exact .inl rfl
  · exact .inl rfl
  · exact .inr ⟨a, rfl, ha, rfl⟩
  all_goals exact .inl rfl

/-- Only ADD, SUB and LOAD write AC or the flags, and then the flags follow AC, R140. -/
theorem exec_flags (h : exec i s = .next u) :
    (u.ac = s.ac ∧ u.z = s.z ∧ u.n = s.n) ∨
    (u.z = decide (u.ac = 0) ∧ u.n = decide (u.ac < 0) ∧
      ∃ a, i = .add a ∨ i = .sub a ∨ i = .load a) := by
  rcases exec_cases h with ⟨a, -, rfl⟩ | ⟨a, -, rfl⟩ | ⟨a, -, -, rfl⟩ | ⟨a, r, -, hi, rfl⟩ |
    ⟨a, r, -, -, -, rfl⟩ | ⟨a, -, -, rfl⟩ | ⟨a, -, -, rfl⟩ | ⟨-, rfl⟩ | ⟨-, rfl⟩
  · exact .inl ⟨rfl, rfl, rfl⟩
  · exact .inl ⟨rfl, rfl, rfl⟩
  · exact .inl ⟨rfl, rfl, rfl⟩
  · refine .inr ⟨rfl, rfl, a, ?_⟩
    rcases hi with ⟨hi, -⟩ | ⟨hi, -⟩ | ⟨hi, -⟩ <;> simp [hi]
  all_goals exact .inl ⟨rfl, rfl, rfl⟩

/-- Only OUT adds to the output record, and it adds AC, R213. -/
theorem exec_outLog (h : exec i s = .next u) :
    (i = .out ∧ u.outLog = s.outLog ++ [s.ac]) ∨ (i ≠ .out ∧ u.outLog = s.outLog) := by
  by_cases hi : i = .out
  · subst hi
    cases execOut_cases h
    exact .inl ⟨rfl, rfl⟩
  · obtain ⟨-, -, -, -, -, -, -, hout, -⟩ := executeWritesOnlyItsTableRow i s u h
    exact .inr ⟨hi, hout hi⟩

theorem isHalt_iff : isHalt i = true ↔ ∃ a, i = .halt a := by
  cases i <;> simp [isHalt]

/-- How an execute phase leaves a running machine: running, halted by HALT, or in ERRORED by an ADD
or a SUB that overflows. -/
theorem exec_runState (hr : s.rs = .running) (h : exec i s = .next u) :
    (isHalt i = false ∧ u.rs = .running ∧ u.cause = s.cause ∧ u.cyc = s.cyc) ∨
    (isHalt i = true ∧ u.rs = .halted ∧ u.cause = s.cause ∧ u.cyc = s.cyc ∧ u.inReq = s.inReq) ∨
    (u.rs = .errored ∧ u.cause = .overflow ∧ u.cyc = s.cyc + 1 ∧ u.inReq = s.inReq ∧
      ∃ a, (i = .add a ∧ ¬ InRange (s.ac + s.mem.read a)) ∨
        (i = .sub a ∧ ¬ InRange (s.ac - s.mem.read a))) := by
  rcases exec_cases h with ⟨a, rfl, rfl⟩ | ⟨a, rfl, rfl⟩ | ⟨a, rfl, -, rfl⟩ | ⟨a, r, -, hi, rfl⟩ |
    ⟨a, r, -, hi, ho, rfl⟩ | ⟨a, -, hi, rfl⟩ | ⟨a, -, hi, rfl⟩ | ⟨rfl, rfl⟩ | ⟨rfl, rfl⟩
  · exact .inr (.inl ⟨rfl, rfl, rfl, rfl, rfl⟩)
  · exact .inl ⟨rfl, hr, rfl, rfl⟩
  · exact .inl ⟨rfl, hr, rfl, rfl⟩
  · refine .inl ⟨?_, hr, rfl, rfl⟩
    rcases hi with ⟨rfl, -⟩ | ⟨rfl, -⟩ | ⟨rfl, -⟩ <;> rfl
  · refine .inr (.inr ⟨rfl, rfl, rfl, rfl, a, ?_⟩)
    rcases hi with ⟨rfl, rfl⟩ | ⟨rfl, rfl⟩
    · exact .inl ⟨rfl, ho⟩
    · exact .inr ⟨rfl, ho⟩
  · refine .inl ⟨?_, hr, rfl, rfl⟩
    rcases hi with rfl | ⟨rfl, -⟩ | ⟨rfl, -⟩ <;> rfl
  · refine .inl ⟨?_, hr, rfl, rfl⟩
    rcases hi with ⟨rfl, -⟩ | ⟨rfl, -⟩ <;> rfl
  · exact .inl ⟨rfl, hr, rfl, rfl⟩
  · exact .inl ⟨rfl, hr, rfl, rfl⟩

/-- The events of an execute phase that raises no fault, R125. -/
theorem exec_trace (h : exec i s = .next u) (hr : u.rs ≠ .errored) :
    u.trace = s.trace ++ executeEvents s i := by
  rcases exec_cases h with ⟨a, rfl, rfl⟩ | ⟨a, rfl, rfl⟩ | ⟨a, rfl, -, rfl⟩ | ⟨a, r, -, hi, rfl⟩ |
    ⟨a, r, -, -, -, rfl⟩ | ⟨a, -, hi, rfl⟩ | ⟨a, -, hi, rfl⟩ | ⟨rfl, rfl⟩ | ⟨rfl, rfl⟩
  · rfl
  · simp [executeEvents]
  · rfl
  · rcases hi with ⟨rfl, rfl⟩ | ⟨rfl, rfl, -⟩ | ⟨rfl, rfl, -⟩ <;> simp [executeEvents]
  · exact absurd rfl hr
  · rcases hi with rfl | ⟨rfl, hac⟩ | ⟨rfl, hac⟩
    · rfl
    · rw [executeEvents, if_pos hac]
    · rw [executeEvents, if_pos hac]
  · rcases hi with ⟨rfl, hac⟩ | ⟨rfl, hac⟩
    · rw [executeEvents, if_neg hac, List.append_nil]
    · rw [executeEvents, if_neg hac, List.append_nil]
  · simp [executeEvents]
  · rfl

end Sys2Proof.Machine
end

section
/-! PROOFS. The statements about single fields: who writes PC, IR, memory, the flags and the output
record (spec/10_state.md R22 to R36, spec/20_memory.md R53 and R63). -/

namespace Sys2Proof.Machine

variable {s t u : State} {i : Instr}

/-! ### IR and memory -/

/-- Settles O41: fetch writes IR, no execute phase does, and without a fetch nothing does. -/
theorem onlyFetchWritesIr : Obligations.OnlyFetchWritesIr := by
  intro s t h
  rcases step_outcomes h with ⟨hi, x, rest, -, rfl⟩ | ⟨he, hp, rfl⟩ | ⟨he, hp, a, -, rfl⟩ |
    ⟨he, hp, i, u, -, hu, rfl⟩
  · exact ⟨fun he => absurd he (not_cycleEnabled_of_inReq hi), fun _ => by simp⟩
  · exact ⟨fun _ hlt => absurd hp (Nat.not_le.mpr hlt), fun _ => by rw [boundsFault_started]⟩
  · exact ⟨fun _ _ => by rw [unknownOpcode_eq, fetched_ir], fun hn => absurd ⟨he, hp⟩ hn⟩
  · obtain ⟨hir, -, -⟩ := exec_untouched hu
    exact ⟨fun _ _ => by rw [afterExecute_ir, hir, fetched_ir], fun hn => absurd ⟨he, hp⟩ hn⟩

/-- Settles O38: of the four outcomes of a step only the execute phase of a STORE writes memory. -/
theorem onlyStoreWritesMemory : Obligations.OnlyStoreWritesMemory := by
  intro s t h
  rcases step_outcomes h with ⟨-, x, rest, -, rfl⟩ | ⟨-, -, rfl⟩ | ⟨-, -, a, -, rfl⟩ |
    ⟨he, hp, i, u, hd, hu, rfl⟩
  · exact .inl (by simp)
  · exact .inl (by rw [boundsFault_started])
  · exact .inl (by rw [unknownOpcode_eq, fetched_mem])
  · rcases exec_mem hu with hm | ⟨a, rfl, -, hm⟩
    · exact .inl (by rw [afterExecute_mem, hm, fetched_mem])
    · exact .inr ⟨he, hp, a, hd, by rw [afterExecute_mem, hm, fetched_mem, fetched_ac]⟩

/-- Where the next step fetches inside the memory, it writes IR with the word there. -/
theorem step_ir_of_fetch (h : step s = .next t) (hi : s.inReq = false) (hp : s.pc < 100) :
    t.ir = s.mem.read s.pc := by
  rcases step_cases h with ⟨hi', -⟩ | ⟨he, -⟩
  · rw [hi] at hi'
    cases hi'
  · exact (onlyFetchWritesIr s t h).1 he hp

/-- Settles O35: the STORE leaves IR, PC and the request to fetch, and the next fetch reads the
memory it wrote. -/
theorem storeIsSeenByTheNextFetch : Obligations.StoreIsSeenByTheNextFetch := by
  intro s t a hm he hp hd h
  obtain ⟨u, hu, rfl⟩ := step_outcome_known he hp hd h
  obtain ⟨ha, rfl⟩ := execStore_cases hu
  have hread : (s.mem.write a s.ac).read a = s.ac := Memory.read_write_same hm a s.ac
  have hmem : (afterExecute (storeOperand a s.fetched)).mem = s.mem.write a s.ac := by
    simp [storeOperand_eq]
  refine ⟨by simp [storeOperand_eq], by rw [hmem, hread], fun v hnext hv => ?_⟩
  have hpc : (afterExecute (storeOperand a s.fetched)).pc = a := by
    simp [storeOperand_eq, hnext]
  have hin : (afterExecute (storeOperand a s.fetched)).inReq = false := by
    simp [storeOperand_eq, he.2]
  rw [step_ir_of_fetch hv hin (hpc.trans_lt ha), hmem, hpc, hread]

/-! ### PC -/

/-- Settles O36: fetch adds one, a taken branch writes its target, and without a fetch PC stays. -/
theorem pcFollowsFetchAndBranches : Obligations.PcFollowsFetchAndBranches := by
  intro s t h
  rcases step_outcomes h with ⟨hi, x, rest, -, rfl⟩ | ⟨he, hp, rfl⟩ | ⟨he, hp, a, hd, rfl⟩ |
    ⟨he, hp, i, u, hd, hu, rfl⟩
  · exact ⟨fun he => absurd he (not_cycleEnabled_of_inReq hi), fun _ => by simp⟩
  · exact ⟨fun _ hlt => absurd hp (Nat.not_le.mpr hlt), fun _ => by rw [boundsFault_started]⟩
  · exact ⟨fun _ _ => by rw [unknownOpcode_eq, hd, fetched_pc], fun hn => absurd ⟨he, hp⟩ hn⟩
  · refine ⟨fun _ _ => ?_, fun hn => absurd ⟨he, hp⟩ hn⟩
    rw [afterExecute_pc, exec_pc hu, hd]
    cases i <;> rfl

/-! ### AC and the flags, and the output record -/

/-- Settles O39: AC and the flags are written together, by an accepted answer or by one of the three
instructions that write AC. -/
theorem flagsAreWrittenOnlyWithAc : Obligations.FlagsAreWrittenOnlyWithAc := by
  intro s t h
  rcases step_outcomes h with ⟨hi, x, rest, hx, rfl⟩ | ⟨-, -, rfl⟩ | ⟨-, -, a, -, rfl⟩ |
    ⟨he, hp, i, u, hd, hu, rfl⟩
  · rcases completeInput_outcomes x { s with answers := rest } with
      ⟨-, h⟩ | ⟨v, -, -, h⟩ | ⟨v, rfl, -, -, -, h⟩ | ⟨v, rfl, -, -, h⟩ <;> rw [h]
    · exact .inl ⟨rfl, rfl, rfl⟩
    · exact .inl ⟨rfl, rfl, rfl⟩
    · exact .inr ⟨rfl, rfl, fun _ => by simp [hx], fun hf => by simp [hi] at hf⟩
    · exact .inr ⟨rfl, rfl, fun _ => by simp [hx], fun hf => by simp [hi] at hf⟩
  · exact .inl (by simp [boundsFault_started])
  · exact .inl (by simp [unknownOpcode_eq])
  · rcases exec_flags hu with hsame | ⟨hz, hn, a, hi⟩
    · exact .inl (by simpa using hsame)
    · refine .inr ⟨by simpa using hz, by simpa using hn, fun hf => by simp [he.2] at hf,
        fun _ => ⟨hp, a, ?_⟩⟩
      rw [hd]
      rcases hi with rfl | rfl | rfl <;> simp

/-- Settles O40: only the word 902 decodes to OUT, and only the execute phase of OUT adds to the
record. -/
theorem onlyOutExtendsTheOutputRecord : Obligations.OnlyOutExtendsTheOutputRecord := by
  intro s t h
  rcases step_outcomes h with ⟨hi, x, rest, -, rfl⟩ | ⟨-, hp, rfl⟩ | ⟨-, -, a, hd, rfl⟩ |
    ⟨he, hp, i, u, hd, hu, rfl⟩
  · exact .inr ⟨by simp, fun hc => not_cycleEnabled_of_inReq hi hc.1⟩
  · exact .inr ⟨by rw [boundsFault_started], fun hc => absurd hp (Nat.not_le.mpr hc.2.1)⟩
  · refine .inr ⟨by rw [unknownOpcode_eq, fetched_outLog], fun hc => ?_⟩
    rw [(decode_eq_out_iff _).mpr hc.2.2] at hd
    cases hd
  · rcases exec_outLog hu with ⟨rfl, hout⟩ | ⟨hi, hout⟩
    · exact .inl ⟨by simpa using hout, he, hp, decode_out hd⟩
    · refine .inr ⟨by simpa using hout, fun hc => hi ?_⟩
      rw [(decode_eq_out_iff _).mpr hc.2.2] at hd
      exact (Decoded.known.inj hd).symm

end Sys2Proof.Machine
end

section
/-! PROOFS. The run state: how a step can end, the causes, the off-end check and the order of the
events (spec/60_exceptions.md R231 and R250, spec/40_cycle.md R116 and R125). -/

namespace Sys2Proof.Machine

variable {s t u : State} {i : Instr}

/-- How a cycle that runs an instruction can end: in ERRORED by an ADD or a SUB that overflows,
halted by HALT, halted off the end, waiting for an answer, or running on inside the program. -/
inductive CycleEnd (s t : State) (i : Instr) : Prop where
  | overflow (hrs : t.rs = .errored) (hcause : t.cause = .overflow) (hcyc : t.cyc = s.cyc + 1)
      (hin : t.inReq = false)
      (hi : ∃ a, (i = .add a ∧ ¬ InRange (s.ac + s.mem.read a)) ∨
        (i = .sub a ∧ ¬ InRange (s.ac - s.mem.read a)))
  | halt (hrs : t.rs = .halted) (hcause : t.cause = s.cause) (hcyc : t.cyc = s.cyc + 1)
      (hin : t.inReq = false) (hi : isHalt i = true)
  | offEnd (hrs : t.rs = .halted) (hcause : t.cause = .outOfProgram) (hcyc : t.cyc = s.cyc + 1)
      (hin : t.inReq = false) (hi : isHalt i = false) (hpe : t.progEnd ≤ t.pc)
  | waiting (hrs : t.rs = .running) (hcause : t.cause = s.cause) (hcyc : t.cyc = s.cyc)
      (hin : t.inReq = true)
  | running (hrs : t.rs = .running) (hcause : t.cause = s.cause) (hcyc : t.cyc = s.cyc + 1)
      (hin : t.inReq = false) (hpe : t.pc < t.progEnd)

theorem cycleEnd_of_exec (he : cycleEnabled s) (hu : exec i s.fetched = .next u) :
    CycleEnd s (afterExecute u) i := by
  rcases exec_runState rfl hu with ⟨hi, hr, hcause, hcyc⟩ | ⟨hi, hr, hcause, hcyc, hin⟩ |
    ⟨hr, hcause, hcyc, hin, hi⟩
  · rcases afterExecute_cases u with ⟨hr' | hin, h⟩ | ⟨-, hin, hpe, h⟩ | ⟨-, hin, hpe, h⟩
    · rw [hr] at hr'
      cases hr'
    · exact .waiting (by rw [h, hr]) (by rw [h, hcause, fetched_cause])
        (by rw [h, hcyc, fetched_cyc]) (by rw [h, hin])
    · exact .offEnd (by rw [h]) (by rw [h]) (by rw [h, hcyc, fetched_cyc]) (by rw [h, hin]) hi
        (by simpa using hpe)
    · exact .running (by rw [h, hr]) (by rw [h, hcause, fetched_cause])
        (by rw [h, hcyc, fetched_cyc]) (by rw [h, hin])
        (by simpa using Nat.not_le.mp fun hp => hpe ⟨hr, hp⟩)
  · have hin' : u.inReq = false := hin.trans he.2
    rw [afterExecute_ends (by simp [hr]) hin', endCycle_of_not_running (by simp [hr])]
    exact .halt hr hcause (by rw [hcyc, fetched_cyc]) hin' hi
  · rw [afterExecute_skips (.inl hr)]
    exact .overflow hr hcause hcyc (hin.trans he.2) hi

/-- Settles O37: of a cycle's ends only one leaves the machine RUNNING and not waiting, and the
completion of an IN ends its cycle too. -/
theorem runningStaysInsideTheProgram : Obligations.RunningStaysInsideTheProgram := by
  intro s t h hr hin
  rcases step_outcomes h with ⟨-, x, rest, -, rfl⟩ | ⟨-, -, rfl⟩ | ⟨-, -, a, -, rfl⟩ |
    ⟨he, -, i, u, -, hu, rfl⟩
  · rw [completeInput_pc, completeInput_progEnd]
    rcases completeInput_outcomes x { s with answers := rest } with
      ⟨-, h⟩ | ⟨v, -, -, h⟩ | ⟨v, -, -, -, -, h⟩ | ⟨v, -, -, hpe, h⟩ <;> rw [h] at hr
    · cases hr
    · cases hr
    · cases hr
    · exact Nat.not_le.mp fun hp => hpe ⟨hr, hp⟩
  · rw [boundsFault_started] at hr
    cases hr
  · rw [unknownOpcode_eq] at hr
    cases hr
  · cases cycleEnd_of_exec he hu with
    | running _ _ _ _ hpe => exact hpe
    | overflow hrs | halt hrs | offEnd hrs =>
      rw [hrs] at hr
      cases hr
    | waiting _ _ _ hin' =>
      rw [hin'] at hin
      cases hin

/-- Settles O42: each fault of a cycle and each of a completion, with its condition. -/
theorem fatalCausesHaveTheirConditions : Obligations.FatalCausesHaveTheirConditions := by
  intro s t h hne hr
  rcases step_outcomes h with ⟨hi, x, rest, hx, rfl⟩ | ⟨he, hp, rfl⟩ | ⟨he, hp, a, hd, rfl⟩ |
    ⟨he, hp, i, u, hd, hu, rfl⟩
  · rcases completeInput_outcomes x { s with answers := rest } with
      ⟨rfl, h⟩ | ⟨v, rfl, hv, h⟩ | ⟨v, -, -, -, -, h⟩ | ⟨v, -, -, -, h⟩ <;> rw [h] at hr ⊢
    · exact .inr (.inr (.inr (.inr ⟨rfl, hi, by rw [hx]; rfl⟩)))
    · exact .inr (.inr (.inr (.inl ⟨rfl, hi, v, by rw [hx]; rfl, hv⟩)))
    · cases hr
    · exact absurd hr hne
  · exact .inl ⟨by rw [boundsFault_started], he.2, hp⟩
  · exact .inr (.inl ⟨by rw [unknownOpcode_eq], he.2, hp, a, hd⟩)
  · cases cycleEnd_of_exec he hu with
    | overflow _ hcause _ _ hi =>
      obtain ⟨a, hi⟩ := hi
      refine .inr (.inr (.inl ⟨hcause, he.2, hp, a, ?_⟩))
      rcases hi with ⟨rfl, ho⟩ | ⟨rfl, ho⟩
      · exact .inl ⟨hd, ho⟩
      · exact .inr ⟨hd, ho⟩
    | halt hrs | offEnd hrs | waiting hrs | running hrs =>
      rw [hrs] at hr
      cases hr

/-- While a cycle is enabled and RS and CAUSE agree, CAUSE is NONE, R231. -/
theorem cause_of_cycleEnabled (he : cycleEnabled s) (h : causeAgrees s.rs s.cause = true) :
    s.cause = .none := by
  obtain ⟨hr | hr, -⟩ := he <;> simpa [causeAgrees, hr] using h

/-- The completion of an IN keeps RS and CAUSE in agreement. -/
theorem completeInput_causeAgrees (x : InputAnswer) (h : causeAgrees s.rs s.cause = true) :
    causeAgrees (completeInput x s).rs (completeInput x s).cause = true := by
  rcases completeInput_outcomes x s with ⟨-, hc⟩ | ⟨v, -, -, hc⟩ | ⟨v, -, -, -, -, hc⟩ |
    ⟨v, -, -, -, hc⟩ <;> rw [hc]
  · rfl
  · rfl
  · rfl
  · exact h

/-- Settles O43: every end of a cycle and every completion of an IN sets RS and CAUSE together. -/
theorem causeAgreesWithTheRunState : Obligations.CauseAgreesWithTheRunState := by
  refine ⟨rfl, fun s t hagree h => ?_⟩
  rcases step_outcomes h with ⟨-, x, rest, -, rfl⟩ | ⟨-, -, rfl⟩ | ⟨-, -, a, -, rfl⟩ |
    ⟨he, -, i, u, -, hu, rfl⟩
  · exact completeInput_causeAgrees (s := { s with answers := rest }) x hagree
  · rw [boundsFault_started]
    rfl
  · rw [unknownOpcode_eq]
    rfl
  · have hnone := cause_of_cycleEnabled he hagree
    cases cycleEnd_of_exec he hu with
    | overflow hrs hcause | halt hrs hcause | offEnd hrs hcause | waiting hrs hcause
    | running hrs hcause => simp [causeAgrees, hrs, hcause, hnone]

/-- Settles O44: no end of a cycle is READY, and of the two that are HALTED one is a HALT and one
the off-end check. -/
theorem runStateFollowsItsTransitions : Obligations.RunStateFollowsItsTransitions := by
  intro s t hinv h
  rcases step_outcomes h with ⟨hi, x, rest, -, rfl⟩ | ⟨-, -, rfl⟩ | ⟨-, -, a, -, rfl⟩ |
    ⟨he, -, i, u, hd, hu, rfl⟩
  · have hrun : s.rs = .running := (hinv.waiting hi).1
    rcases completeInput_outcomes x { s with answers := rest } with
      ⟨-, h⟩ | ⟨v, -, -, h⟩ | ⟨v, -, -, -, hpe, h⟩ | ⟨v, -, -, -, h⟩ <;> rw [h]
    · exact ⟨by simp, fun _ hr => by cases hr⟩
    · exact ⟨by simp, fun _ hr => by cases hr⟩
    · exact ⟨by simp, fun _ _ => .inr ⟨rfl, hpe⟩⟩
    · exact ⟨by simp [hrun], fun hne hr => absurd hr hne⟩
  · rw [boundsFault_started]
    exact ⟨by simp, fun _ hr => by cases hr⟩
  · rw [unknownOpcode_eq]
    exact ⟨by simp, fun _ hr => by cases hr⟩
  · cases cycleEnd_of_exec he hu with
    | halt hrs hcause _ _ hi =>
      obtain ⟨a, rfl⟩ := isHalt_iff.mp hi
      exact ⟨by simp [hrs], fun _ _ => .inl ⟨he.2, hcause, a, hd⟩⟩
    | offEnd hrs hcause _ _ _ hpe => exact ⟨by simp [hrs], fun _ _ => .inr ⟨hcause, hpe⟩⟩
    | overflow hrs | waiting hrs | running hrs =>
      exact ⟨by simp [hrs], fun _ hr => by rw [hrs] at hr; cases hr⟩

/-- Settles O23: the completion with a cancellation, by the host and by the queue, and no other
outcome of a step brings its cause. -/
theorem inputCancelledOnlyByCancel : Obligations.InputCancelledOnlyByCancel := by
  refine ⟨fun rest s hi => ?_, fun s t h hne hcause => ?_⟩
  · have heq := completeInput_cancelled s
    rw [raiseFault_eq] at heq
    exact ⟨_, heq, hostAct_input hi _, step_answered hi _ rest⟩
  · rcases step_outcomes h with ⟨hi, x, rest, hx, rfl⟩ | ⟨-, -, rfl⟩ | ⟨-, -, a, -, rfl⟩ |
      ⟨he, -, i, u, -, hu, rfl⟩
    · refine ⟨hi, ?_⟩
      rcases completeInput_outcomes x { s with answers := rest } with
        ⟨rfl, h⟩ | ⟨v, -, -, h⟩ | ⟨v, -, -, -, -, h⟩ | ⟨v, -, -, -, h⟩ <;> rw [h] at hcause
      · rw [hx]
        rfl
      · cases hcause
      · cases hcause
      · exact absurd hcause hne
    · rw [boundsFault_started] at hcause
      cases hcause
    · rw [unknownOpcode_eq] at hcause
      cases hcause
    · cases cycleEnd_of_exec he hu with
      | overflow _ h | offEnd _ h =>
        rw [h] at hcause
        cases hcause
      | halt _ h | waiting _ h | running _ h => exact absurd (h.symm.trans hcause) hne

/-! ### The order of the events -/

/-- Fetch changes nothing that the events of the execute phase show. -/
theorem executeEvents_fetched (s : State) (i : Instr) :
    executeEvents s.fetched i = executeEvents s i := by
  cases i <;> rfl

/-- Settles O34: the execute phase raised no fault, so it added its own events, and what follows it
added those of the off-end check and of the count. -/
theorem cycleEmitsItsEventsInOrder : Obligations.CycleEmitsItsEventsInOrder := by
  intro s t i he hp hd h hne hin
  obtain ⟨u, hu, rfl⟩ := step_outcome_known he hp hd h
  rw [afterExecute_inReq] at hin
  have hrun := exec_runState rfl hu
  rcases afterExecute_cases u with ⟨hr | hw, h⟩ | ⟨hr, -, -, h⟩ | ⟨hr, -, -, h⟩
  · rw [h] at hne
    exact absurd hr hne
  · rw [hin] at hw
    cases hw
  · have htrace := exec_trace hu (by simp [hr])
    have hcyc : isHalt i = false ∧ u.cyc = s.cyc := by
      rcases hrun with ⟨hi, -, -, hcyc⟩ | ⟨-, hr', -⟩ | ⟨hr', -⟩
      · exact ⟨hi, hcyc⟩
      · simp [hr] at hr'
      · simp [hr] at hr'
    simp [h, htrace, hcyc, executeEvents_fetched]
  · have htrace := exec_trace hu hr
    have hcyc : u.cyc = s.cyc ∧ ¬ (u.rs = .halted ∧ isHalt i = false) := by
      rcases hrun with ⟨hi, hr, -, hcyc⟩ | ⟨hi, -, -, hcyc, -⟩ | ⟨hr', -⟩
      · exact ⟨hcyc, by simp [hr]⟩
      · exact ⟨hcyc, by simp [hi]⟩
      · exact absurd hr' hr
    rw [h, if_neg hcyc.2]
    simp [htrace, hcyc.1, executeEvents_fetched]

end Sys2Proof.Machine
end

section
/-! PROOFS. The memory as the words it reads, and the images put into it: by the load operation and
by the placed word (spec/20_memory.md R60 and R65, spec/70_reset_and_hazards.md R272 and R273). -/

namespace Sys2Proof.Machine

variable {s t : State}

/-! ### Memories in canonical form -/

theorem Memory.wf_cons {k : Nat} {w : Int} {m : Memory} (h : Memory.wf ((k, w) :: m)) :
    (∀ c ∈ m, k < c.1) ∧ k < 100 ∧ w ≠ 0 ∧ m.wf := by
  obtain ⟨hp, hc⟩ := h
  obtain ⟨hlt, hp⟩ := List.pairwise_cons.mp hp
  obtain ⟨hk, hw⟩ := hc (k, w) (by simp)
  exact ⟨hlt, hk, hw, hp, fun c hm => hc c (by simp [hm])⟩

/-- Below its first address a canonical memory lists nothing. -/
theorem Memory.read_below {m : Memory} {a k : Nat} (h : ∀ c ∈ m, k < c.1) (ha : a ≤ k) :
    m.read a = 0 :=
  Memory.read_of_unlisted fun c hc => Nat.ne_of_gt (Nat.lt_of_le_of_lt ha (h c hc))

/-- The first address of a canonical memory is no greater than that of any that reads the same: it
reads a word that is not 0, and the other lists nothing below its own. -/
theorem Memory.head_le {k l : Nat} {v w : Int} {m₁ m₂ : Memory}
    (h₁ : Memory.wf ((k, v) :: m₁)) (h₂ : Memory.wf ((l, w) :: m₂))
    (h : ∀ a, Memory.read ((k, v) :: m₁) a = Memory.read ((l, w) :: m₂) a) : l ≤ k := by
  obtain ⟨-, -, hv, -⟩ := Memory.wf_cons h₁
  obtain ⟨hlt, -, -, -⟩ := Memory.wf_cons h₂
  by_contra hkl
  have hk := h k
  rw [Memory.read_cons, Memory.read_cons, if_pos rfl, if_neg (by omega),
    Memory.read_below hlt (by omega)] at hk
  exact hv hk

/-- Settles O49: equal words give equal first entries, and then equal words behind them. -/
theorem memoryIsDeterminedByItsWords : Obligations.MemoryIsDeterminedByItsWords := by
  intro m₁
  induction m₁ with
  | nil =>
    rintro (_ | ⟨⟨l, w⟩, m₂⟩) - h₂ h
    · rfl
    · obtain ⟨-, -, hw, -⟩ := Memory.wf_cons h₂
      have hl := h l
      rw [Memory.read_nil, Memory.read_cons, if_pos rfl] at hl
      exact absurd hl.symm hw
  | cons c m₁ ih =>
    obtain ⟨k, v⟩ := c
    rintro (_ | ⟨⟨l, w⟩, m₂⟩) h₁ h₂ h
    · obtain ⟨-, -, hv, -⟩ := Memory.wf_cons h₁
      have hk := h k
      rw [Memory.read_nil, Memory.read_cons, if_pos rfl] at hk
      exact absurd hk hv
    · have hkl : k = l :=
        Nat.le_antisymm (Memory.head_le h₂ h₁ fun a => (h a).symm) (Memory.head_le h₁ h₂ h)
      subst hkl
      obtain ⟨hlt₁, -, -, hwf₁⟩ := Memory.wf_cons h₁
      obtain ⟨hlt₂, -, -, hwf₂⟩ := Memory.wf_cons h₂
      have hvw : v = w := by
        have hk := h k
        rwa [Memory.read_cons, Memory.read_cons, if_pos rfl, if_pos rfl] at hk
      have htail : ∀ a, Memory.read m₁ a = Memory.read m₂ a := by
        intro a
        by_cases ha : k = a
        · rw [Memory.read_below hlt₁ ha.ge, Memory.read_below hlt₂ ha.ge]
        · have hcons := h a
          rwa [Memory.read_cons, Memory.read_cons, if_neg ha, if_neg ha] at hcons
      rw [hvw, ih m₂ hwf₁ hwf₂ htail]

/-! ### The load operation -/

theorem load_of_not_loadable (image : List (Nat × Int)) (pe : Nat) (h : ¬ loadable s) :
    load image pe s = .refused .loadNotAfterReset := by
  rw [load, if_pos h]

theorem load_of_bad_address {image : List (Nat × Int)} (pe : Nat) (hl : loadable s)
    (h : ¬ ∀ c ∈ image, c.1 < Config.memSize) :
    load image pe s = .refused .loadAddressOutsideMemory := by
  rw [load, if_neg (not_not_intro hl), if_pos h]

theorem load_of_bad_word {image : List (Nat × Int)} (pe : Nat) (hl : loadable s)
    (ha : ∀ c ∈ image, c.1 < Config.memSize) (h : ¬ ∀ c ∈ image, InRange c.2) :
    load image pe s = .refused .loadWordOutOfRange := by
  rw [load, if_neg (not_not_intro hl), if_neg (not_not_intro ha), if_pos h]

theorem load_accepted {image : List (Nat × Int)} (pe : Nat) (hl : loadable s)
    (ha : ∀ c ∈ image, c.1 < Config.memSize) (hv : ∀ c ∈ image, InRange c.2) :
    load image pe s = .next { s with mem := Memory.writeAll [] image, progEnd := pe } := by
  rw [load, if_neg (not_not_intro hl), if_neg (not_not_intro ha), if_neg (not_not_intro hv)]

/-- Settles O57: the three tests of a load in their order, and what it does where it passes them. -/
theorem loadIsAcceptedExactlyAfterReset : Obligations.LoadIsAcceptedExactlyAfterReset := by
  intro image pe s
  refine ⟨⟨?_, ?_⟩, load_of_not_loadable image pe, fun hl => ⟨?_, fun ha hv => ?_⟩⟩
  · rintro ⟨t, ht⟩
    obtain ⟨hl, ha, hv, -⟩ := load_cases ht
    exact ⟨hl, fun c hc => ⟨Nat.le_of_lt_succ (ha c hc), hv c hc⟩⟩
  · rintro ⟨hl, hi⟩
    exact ⟨_, load_accepted pe hl (fun c hc => Nat.lt_succ_of_le (hi c hc).1)
      fun c hc => (hi c hc).2⟩
  · rintro ⟨c, hc, hlt⟩
    exact load_of_bad_address pe hl fun ha =>
      absurd hlt (Nat.not_lt.mpr (Nat.le_of_lt_succ (ha c hc)))
  · obtain ⟨c, hc, hout⟩ := hv
    exact load_of_bad_word pe hl (fun c hc => Nat.lt_succ_of_le (ha c hc)) fun h => hout (h c hc)

/-! ### The words of an image -/

theorem Memory.writeAll_concat (m : Memory) (image : List (Nat × Int)) (c : Nat × Int) :
    m.writeAll (image ++ [c]) = (m.writeAll image).write c.1 c.2 := by
  induction image generalizing m with
  | nil => rfl
  | cons d image ih => exact ih _

theorem imageWord_concat (image : List (Nat × Int)) (c : Nat × Int) (a : Nat) :
    imageWord (image ++ [c]) a = if a = c.1 then c.2 else imageWord image a := by
  by_cases h : a = c.1
  · simp [imageWord, h]
  · simp [imageWord, h, Ne.symm h]

/-- The memory a load leaves reads at each address the last word the image has for it, R65. -/
theorem read_writeAll_nil {image : List (Nat × Int)} (hi : ∀ c ∈ image, c.1 < Config.memSize)
    (a : Nat) : (Memory.writeAll [] image).read a = imageWord image a := by
  induction image using List.reverseRecOn with
  | nil => rfl
  | append_singleton image c ih =>
    have hi' : ∀ c ∈ image, c.1 < Config.memSize := fun d hd => hi d (by simp [hd])
    have hwf : Memory.wf (Memory.writeAll [] image) := Memory.writeAll_wf hi' Memory.reset_wf
    rw [Memory.writeAll_concat, imageWord_concat, Memory.read_write hwf, ih hi']

/-- Settles O58: reset leaves a state that a load accepts, with an empty memory to write the image
to. -/
theorem launchStateHoldsTheImage : Obligations.LaunchStateHoldsTheImage := by
  intro image pe s hi
  have ha : ∀ c ∈ image, c.1 < Config.memSize := fun c hc => Nat.lt_succ_of_le (hi c hc).1
  exact ⟨_, _, load_accepted pe ⟨rfl, rfl, rfl, rfl⟩ ha fun c hc => (hi c hc).2, rfl,
    Memory.writeAll_wf ha Memory.reset_wf, read_writeAll_nil ha⟩

/-! ### The placed word -/

/-- What `withFetchWord` does with a number that is a word. -/
theorem withFetchWord_eq (s : State) (nbits : Nat) {w : Nat} (hw : w ≤ 999) :
    s.withFetchWord nbits w =
      { s with
        pc := if s.pc < 100 then s.pc else 0
        rs := if s.rs = .ready then .ready else .running
        inReq := false
        mem := s.mem.write (if s.pc < 100 then s.pc else 0) (w : Int) } := by
  simp only [State.withFetchWord, tableWord, if_pos hw, Config.memSize_eq]

/-- Settles O60: the word is written at the PC the next cycle fetches from, and PC and RS are
changed only where they would enable no fetch. -/
theorem placedWordIsFetchedNext : Obligations.PlacedWordIsFetchedNext := by
  intro s nbits w hm hw
  rw [withFetchWord_eq s nbits hw]
  refine ⟨_, rfl, ⟨?_, rfl⟩, ?_, Memory.read_write_same hm _ _, fun he hp => ?_⟩
  · dsimp only
    split
    · exact .inl rfl
    · exact .inr rfl
  · dsimp only
    split
    · assumption
    · decide
  · obtain ⟨hr | hr, hi⟩ := he
    · simp [hp, hr, ← hi]
    · simp [hp, hr, ← hi]

end Sys2Proof.Machine
end

section
/-! PROOFS. The invariant of spec/10_state.md R40, but for CYC: it holds at reset, every operation
of a cycle keeps it, and so does whatever the host does. -/

namespace Sys2Proof.Machine

variable {s t u : State} {i : Instr}

/-- Settles O50: each range by its reset value. -/
theorem invariantHoldsAtReset : Obligations.InvariantHoldsAtReset := by
  constructor <;> decide

theorem State.Inv.read_inRange (h : s.Inv) (a : Nat) : InRange (s.mem.read a) :=
  Memory.read_inRange h.memRange a

/-- Where no request is pending, the invariant says nothing of RS, CAUSE, CYC and the trace. -/
theorem State.Inv.with_runState (h : s.Inv) (hi : s.inReq = false) (rs : RunState) (cause : Cause)
    (cyc : Nat) (trace : List Event) :
    State.Inv { s with rs := rs, cause := cause, cyc := cyc, trace := trace } :=
  { h with waiting := fun hw => by simp [hi] at hw }

/-- Fetch inside the memory keeps the invariant, R113. -/
theorem State.Inv.fetched (h : s.Inv) (he : cycleEnabled s) (hp : s.pc < 100) : s.fetched.Inv :=
  { h with
    pcRange := hp
    marRange := hp
    mbrRange := h.read_inRange s.pc
    irRange := h.read_inRange s.pc
    waiting := fun hw => by simp [he.2] at hw }

/-- The operand of ADD, SUB and LOAD keeps the invariant. -/
theorem State.Inv.readOperand (h : s.Inv) {a : Nat} (ha : a < 100) : (readOperand a s).Inv := by
  rw [readOperand_eq]
  exact { h with marRange := ha, mbrRange := h.read_inRange a }

/-- STORE keeps the invariant: it writes a word in range at an address of the machine. -/
theorem State.Inv.storeOperand (h : s.Inv) {a : Nat} (ha : a < 100) : (storeOperand a s).Inv := by
  rw [storeOperand_eq]
  exact
    { h with
      marRange := ha
      mbrRange := h.acRange
      memForm := Memory.write_wf h.memForm ha s.ac
      memRange := Memory.write_inRange h.memRange a h.acRange }

theorem State.Inv.writePc (h : s.Inv) {a : Nat} (ha : a < 100) : (writePc a s).Inv :=
  { h with pcRange := Nat.le_of_lt ha }

/-- AC written with a word in range keeps the invariant. -/
theorem State.Inv.loadAc (h : s.Inv) {v : Int} (hv : InRange v) : (loadAc v s).Inv := by
  rw [loadAc_eq]
  exact { h with acRange := hv }

theorem State.Inv.raiseFault (h : s.Inv) (hi : s.inReq = false) (c : Cause) (ia : Nat)
    (v : Option Int) : (raiseFault c ia v s).Inv := by
  rw [raiseFault_eq]
  exact h.with_runState hi _ _ _ _

/-- An ALU result is written only where it is in range, R141 and R142. -/
theorem State.Inv.commitAc (h : s.Inv) (hi : s.inReq = false) (r : Int) : (commitAc r s).Inv := by
  by_cases hr : InRange r
  · rw [commitAc_inRange hr]
    exact h.loadAc hr
  · rw [commitAc_overflow hr]
    exact h.raiseFault hi _ _ _

theorem State.Inv.endCycle (h : s.Inv) (hi : s.inReq = false) : (endCycle s).Inv := by
  rcases endCycle_cases s with ⟨-, -, he⟩ | ⟨-, he⟩ <;> rw [he] <;>
    exact h.with_runState hi _ _ _ _

theorem State.Inv.afterExecute (h : u.Inv) : (afterExecute u).Inv := by
  by_cases hs : u.rs = .errored ∨ u.inReq = true
  · rw [afterExecute_skips hs]
    exact h
  · obtain ⟨hr, hi⟩ := not_or.mp hs
    have hi : u.inReq = false := by simpa using hi
    rw [afterExecute_ends hr hi]
    exact h.endCycle hi

theorem State.Inv.completeInput (h : s.Inv) (x : InputAnswer) : (completeInput x s).Inv := by
  have h' : State.Inv { s with inReq := false } := { h with waiting := fun hw => by cases hw }
  rcases completeInput_cases x s with ⟨-, hc⟩ | ⟨v, -, hv, hc⟩ | ⟨v, -, -, hc⟩ <;> rw [hc]
  · exact h'.raiseFault rfl _ _ _
  · refine (h'.loadAc hv).endCycle ?_
    rw [loadAc_eq]
  · exact h'.raiseFault rfl _ _ _

/-- An execute phase keeps the invariant where no request is pending; IN raises its request in
RUNNING, with its own word in IR. -/
theorem State.Inv.exec (h : s.Inv) (hi : s.inReq = false) (hr : s.rs = .running)
    (hir : i = .inp → s.ir = 901) (hu : exec i s = .next u) : u.Inv := by
  have hop : ∀ a, (Machine.readOperand a s).inReq = false := fun a => by rw [readOperand_eq, hi]
  cases i with
  | halt a =>
    cases execHalt_cases hu
    exact h.with_runState hi _ _ _ _
  | nop a =>
    cases execNop_cases hu
    exact h
  | add a =>
    obtain ⟨ha, rfl⟩ := execAdd_cases hu
    exact (h.readOperand ha).commitAc (hop a) _
  | sub a =>
    obtain ⟨ha, rfl⟩ := execSub_cases hu
    exact (h.readOperand ha).commitAc (hop a) _
  | store a =>
    obtain ⟨ha, rfl⟩ := execStore_cases hu
    exact h.storeOperand ha
  | load a =>
    obtain ⟨ha, rfl⟩ := execLoad_cases hu
    exact (h.readOperand ha).loadAc (h.read_inRange a)
  | br a =>
    obtain ⟨ha, rfl⟩ := execBr_cases hu
    exact h.writePc ha
  | brz a =>
    obtain ⟨ha, rfl⟩ := execBrz_cases hu
    split
    · exact h.writePc ha
    · exact h
  | brp a =>
    obtain ⟨ha, rfl⟩ := execBrp_cases hu
    split
    · exact h.writePc ha
    · exact h
  | inp =>
    cases execIn_cases hu
    exact { h with waiting := fun _ => ⟨hr, hir rfl⟩ }
  | out =>
    cases execOut_cases hu
    exact { h with }

/-- Settles O51: each of the four outcomes of a step is made of operations that keep the
invariant. -/
theorem stepKeepsTheInvariant : Obligations.StepKeepsTheInvariant := by
  intro s t hinv h
  rcases step_outcomes h with ⟨-, x, rest, -, rfl⟩ | ⟨he, -, rfl⟩ | ⟨he, hp, a, -, rfl⟩ |
    ⟨he, hp, i, u, hd, hu, rfl⟩
  · have hinv' : State.Inv { s with answers := rest } := { hinv with }
    exact hinv'.completeInput x
  · rw [boundsFault_started]
    exact hinv.with_runState he.2 _ _ _ _
  · exact (hinv.fetched he hp).raiseFault he.2 _ _ _
  · refine ((hinv.fetched he hp).exec he.2 rfl (fun hi => ?_) hu).afterExecute
    subst hi
    exact decode_inp hd

/-- Settles O52: reset gives the reset values again, and an accepted load a canonical memory of
words. -/
theorem everyReachableStateHasTheInvariant : Obligations.EveryReachableStateHasTheInvariant := by
  intro s hs
  refine hs.invariant invariantHoldsAtReset stepKeepsTheInvariant
    (fun x s h _ => h.completeInput x) (fun s _ => ?_) (fun image pe s t h ht => ?_)
    (fun xs s h => { h with })
  · exact { invariantHoldsAtReset with }
  · obtain ⟨-, ha, hv, rfl⟩ := load_cases ht
    exact
      { h with
        memForm := Memory.writeAll_wf ha Memory.reset_wf
        memRange := Memory.writeAll_inRange hv (by simp) }

end Sys2Proof.Machine
end

section
/-! PROOFS. The two invariants read from the trace port: CYC counts the cycles completed since reset
(spec/10_state.md R32), and the flags follow AC from its first write since reset (R25). -/

namespace Sys2Proof.Machine

variable {s t u : State} {i : Instr}

/-! ### CYC, R32 and R40 -/

/-- What one event does to the count of completed cycles. -/
def countEvent (k : Nat) : Event → Nat
  | .cycle _ => k + 1
  | .runState .ready => 0
  | _ => k

theorem completedCycles_append (xs ys : List Event) :
    completedCycles (xs ++ ys) = ys.foldl countEvent (completedCycles xs) :=
  List.foldl_append

@[simp] theorem foldl_countEvent_startEvents (s : State) (k : Nat) :
    (startEvents s).foldl countEvent k = k := by
  unfold startEvents
  split <;> rfl

@[simp] theorem foldl_countEvent_fetchEvents (s : State) (k : Nat) :
    (fetchEvents s).foldl countEvent k = k := rfl

/-- The count is right after events that show as many cycles as CYC has gone up by. -/
theorem cycCounted_of_append {evs : List Event} (h : s.cycCounted)
    (htrace : t.trace = s.trace ++ evs) (hcyc : t.cyc = evs.foldl countEvent s.cyc) :
    t.cycCounted := by
  rw [State.cycCounted, htrace, completedCycles_append, hcyc, ← h]

theorem fetched_cycCounted (h : s.cycCounted) : s.fetched.cycCounted :=
  cycCounted_of_append (evs := startEvents s ++ fetchEvents s) h (by simp) (by simp)

/-- An execute phase counts no cycle, but for the one an overflow ends. -/
theorem exec_cycCounted (h : s.cycCounted) (hu : exec i s = .next u) : u.cycCounted := by
  rcases exec_cases hu with ⟨a, -, rfl⟩ | ⟨a, -, rfl⟩ | ⟨a, -, -, rfl⟩ | ⟨a, r, -, -, rfl⟩ |
    ⟨a, r, -, -, -, rfl⟩ | ⟨a, -, -, rfl⟩ | ⟨a, -, -, rfl⟩ | ⟨-, rfl⟩ | ⟨-, rfl⟩
  · exact cycCounted_of_append h rfl rfl
  · exact h
  · exact cycCounted_of_append h rfl rfl
  · exact cycCounted_of_append h (List.append_assoc ..) rfl
  · exact cycCounted_of_append h (List.append_assoc ..) rfl
  · exact cycCounted_of_append h rfl rfl
  · exact h
  · exact h
  · exact cycCounted_of_append h rfl rfl

theorem afterExecute_cycCounted (h : u.cycCounted) : (afterExecute u).cycCounted := by
  rcases afterExecute_cases u with ⟨-, he⟩ | ⟨-, -, -, he⟩ | ⟨-, -, -, he⟩ <;> rw [he]
  · exact h
  · exact cycCounted_of_append h rfl rfl
  · exact cycCounted_of_append h rfl rfl

theorem completeInput_cycCounted (x : InputAnswer) (h : s.cycCounted) :
    (completeInput x s).cycCounted := by
  rcases completeInput_outcomes x s with ⟨-, hc⟩ | ⟨v, -, -, hc⟩ | ⟨v, -, -, -, -, hc⟩ |
    ⟨v, -, -, -, hc⟩ <;> rw [hc]
  · exact cycCounted_of_append h rfl rfl
  · exact cycCounted_of_append h rfl rfl
  · exact cycCounted_of_append h (List.append_assoc ..) rfl
  · exact cycCounted_of_append h (List.append_assoc ..) rfl

theorem step_cycCounted (h : s.cycCounted) (ht : step s = .next t) : t.cycCounted := by
  rcases step_outcomes ht with ⟨-, x, rest, -, rfl⟩ | ⟨-, -, rfl⟩ | ⟨-, -, a, -, rfl⟩ |
    ⟨-, -, i, u, -, hu, rfl⟩
  · exact completeInput_cycCounted (s := { s with answers := rest }) x h
  · rw [boundsFault_started]
    exact cycCounted_of_append h (List.append_assoc ..) (by simp [countEvent])
  · rw [unknownOpcode_eq]
    exact cycCounted_of_append (fetched_cycCounted h) rfl rfl
  · exact afterExecute_cycCounted (exec_cycCounted (fetched_cycCounted h) hu)

/-- Settles O46: every operation that adds 1 to CYC shows one cycle event, and reset sets both
counts to 0. -/
theorem cycCountsTheCompletedCycles : Obligations.CycCountsTheCompletedCycles := by
  intro s hs
  refine hs.invariant (P := State.cycCounted) rfl (fun s t h ht => step_cycCounted h ht)
    (fun x s h _ => completeInput_cycCounted x h) (fun s _ => ?_) (fun image pe s t h ht => ?_)
    (fun xs s h => h)
  · exact (completedCycles_append s.trace [.runState .ready]).symm
  · obtain ⟨-, -, -, rfl⟩ := load_cases ht
    exact h

/-! ### The flags, R25 -/

/-- Whether AC has been written, after one more event. -/
def acWrittenAfter (b : Bool) : Event → Bool
  | .reg .ac _ => true
  | .runState .ready => false
  | _ => b

theorem acWritten_append (xs ys : List Event) :
    acWritten (xs ++ ys) = ys.foldl acWrittenAfter (acWritten xs) :=
  List.foldl_append

@[simp] theorem foldl_acWrittenAfter_startEvents (s : State) (b : Bool) :
    (startEvents s).foldl acWrittenAfter b = b := by
  unfold startEvents
  split <;> rfl

@[simp] theorem foldl_acWrittenAfter_fetchEvents (s : State) (b : Bool) :
    (fetchEvents s).foldl acWrittenAfter b = b := rfl

/-- Events that show no write of AC and no reset leave the flags as right as they were. -/
theorem flagsFollowAc_of_append {evs : List Event} (h : s.flagsFollowAc)
    (htrace : t.trace = s.trace ++ evs)
    (hevs : evs.foldl acWrittenAfter (acWritten s.trace) = acWritten s.trace)
    (hsame : t.ac = s.ac ∧ t.z = s.z ∧ t.n = s.n) : t.flagsFollowAc := by
  obtain ⟨hac, hz, hn⟩ := hsame
  rw [State.flagsFollowAc, htrace, acWritten_append, hevs, hac, hz, hn]
  exact h

/-- After events that show a write of AC, the flags are right where they follow it. -/
theorem flagsFollowAc_of_written (h : acWritten t.trace = true)
    (hflags : t.z = decide (t.ac = 0) ∧ t.n = decide (t.ac < 0)) : t.flagsFollowAc :=
  ⟨fun _ => hflags, fun hf => by simp [h] at hf⟩

theorem fetched_flagsFollowAc (h : s.flagsFollowAc) : s.fetched.flagsFollowAc :=
  flagsFollowAc_of_append (evs := startEvents s ++ fetchEvents s) h (by simp) (by simp)
    ⟨rfl, rfl, rfl⟩

/-- An execute phase writes the flags with AC or leaves the three. -/
theorem exec_flagsFollowAc (h : s.flagsFollowAc) (hu : exec i s = .next u) : u.flagsFollowAc := by
  rcases exec_cases hu with ⟨a, -, rfl⟩ | ⟨a, -, rfl⟩ | ⟨a, -, -, rfl⟩ | ⟨a, r, -, -, rfl⟩ |
    ⟨a, r, -, -, -, rfl⟩ | ⟨a, -, -, rfl⟩ | ⟨a, -, -, rfl⟩ | ⟨-, rfl⟩ | ⟨-, rfl⟩
  · exact flagsFollowAc_of_append h rfl rfl ⟨rfl, rfl, rfl⟩
  · exact h
  · exact flagsFollowAc_of_append h rfl rfl ⟨rfl, rfl, rfl⟩
  · exact flagsFollowAc_of_written (acWritten_append ..) ⟨rfl, rfl⟩
  · exact flagsFollowAc_of_append h (List.append_assoc ..) rfl ⟨rfl, rfl, rfl⟩
  · exact flagsFollowAc_of_append h rfl rfl ⟨rfl, rfl, rfl⟩
  · exact h
  · exact h
  · exact flagsFollowAc_of_append h rfl rfl ⟨rfl, rfl, rfl⟩

theorem afterExecute_flagsFollowAc (h : u.flagsFollowAc) : (afterExecute u).flagsFollowAc := by
  rcases afterExecute_cases u with ⟨-, he⟩ | ⟨-, -, -, he⟩ | ⟨-, -, -, he⟩ <;> rw [he]
  · exact h
  · exact flagsFollowAc_of_append h rfl rfl ⟨rfl, rfl, rfl⟩
  · exact flagsFollowAc_of_append h rfl rfl ⟨rfl, rfl, rfl⟩

theorem completeInput_flagsFollowAc (x : InputAnswer) (h : s.flagsFollowAc) :
    (completeInput x s).flagsFollowAc := by
  rcases completeInput_outcomes x s with ⟨-, hc⟩ | ⟨v, -, -, hc⟩ | ⟨v, -, -, -, -, hc⟩ |
    ⟨v, -, -, -, hc⟩ <;> rw [hc]
  · exact flagsFollowAc_of_append h rfl rfl ⟨rfl, rfl, rfl⟩
  · exact flagsFollowAc_of_append h rfl rfl ⟨rfl, rfl, rfl⟩
  · exact flagsFollowAc_of_written (by simp [acWritten_append, acEvents, acWrittenAfter]) ⟨rfl, rfl⟩
  · exact flagsFollowAc_of_written (by simp [acWritten_append, acEvents, acWrittenAfter]) ⟨rfl, rfl⟩

theorem step_flagsFollowAc (h : s.flagsFollowAc) (ht : step s = .next t) : t.flagsFollowAc := by
  rcases step_outcomes ht with ⟨-, x, rest, -, rfl⟩ | ⟨-, -, rfl⟩ | ⟨-, -, a, -, rfl⟩ |
    ⟨-, -, i, u, -, hu, rfl⟩
  · exact completeInput_flagsFollowAc (s := { s with answers := rest }) x h
  · rw [boundsFault_started]
    exact flagsFollowAc_of_append h (List.append_assoc ..) (by simp [acWrittenAfter])
      ⟨rfl, rfl, rfl⟩
  · rw [unknownOpcode_eq]
    exact flagsFollowAc_of_append (fetched_flagsFollowAc h) rfl rfl ⟨rfl, rfl, rfl⟩
  · exact afterExecute_flagsFollowAc (exec_flagsFollowAc (fetched_flagsFollowAc h) hu)

/-- Settles O45: every operation that writes AC shows the write and sets the flags with it, and
reset restores the three and shows runState(READY). -/
theorem flagsFollowAcOnceItIsWritten : Obligations.FlagsFollowAcOnceItIsWritten := by
  intro s hs
  refine hs.invariant (P := State.flagsFollowAc)
    ⟨fun h => absurd h (by decide), fun _ => ⟨rfl, rfl, rfl⟩⟩
    (fun s t h ht => step_flagsFollowAc h ht) (fun x s h _ => completeInput_flagsFollowAc x h)
    (fun s _ => ?_) (fun image pe s t h ht => ?_) (fun xs s h => h)
  · have hreset : acWritten (hostReset s).trace = false :=
      acWritten_append s.trace [.runState .ready]
    exact ⟨fun hw => by simp [hreset] at hw, fun _ => ⟨rfl, rfl, rfl⟩⟩
  · obtain ⟨-, -, -, rfl⟩ := load_cases ht
    exact h

end Sys2Proof.Machine
end

section
/-! PROOFS. Runs: pacing, the branch to itself that hangs, and the branch-free run that stops
(spec/70_reset_and_hazards.md R274, R276 and R280). -/

namespace Sys2Proof.Machine

variable {s t u : State} {i : Instr} {k : Nat}

theorem run_zero (s : State) : Host.Core.run core 0 s = .next s := rfl

theorem run_succ (h : step s = .next t) (k : Nat) :
    Host.Core.run core (k + 1) s = Host.Core.run core k t := by
  have hcore : Host.Core.step core s = .next t := h
  simp only [Host.Core.run, hcore]

/-! ### Pacing, R274 -/

/-- A run of at most `k` steps is `k` steps, unless the machine has none before. -/
theorem runSteps_eq_run (k : Nat) (s : State) :
    ∃ j, j ≤ k ∧ Host.Core.run core j s = .next (runSteps k s) ∧
      (j < k → ∀ u, step (runSteps k s) ≠ .next u) := by
  induction k generalizing s with
  | zero => exact ⟨0, le_rfl, run_zero s, fun h => absurd h (lt_irrefl 0)⟩
  | succ k ih =>
    by_cases h : ∃ t, step s = .next t
    · obtain ⟨t, ht⟩ := h
      obtain ⟨j, hj, hrun, hstuck⟩ := ih t
      rw [runSteps_succ_next ht]
      exact ⟨j + 1, Nat.succ_le_succ hj, by rw [run_succ ht, hrun],
        fun hlt => hstuck (Nat.lt_of_succ_lt_succ hlt)⟩
    · have hstuck : ∀ t, step s ≠ .next t := fun t ht => h ⟨t, ht⟩
      rw [runSteps_of_stuck hstuck]
      exact ⟨0, Nat.zero_le _, run_zero s, fun _ => hstuck⟩

/-- A run that is paused and goes on is the same run. -/
theorem runSteps_add (j k : Nat) (s : State) : runSteps (j + k) s = runSteps k (runSteps j s) := by
  induction j generalizing s with
  | zero => rw [Nat.zero_add, runSteps]
  | succ j ih =>
    by_cases h : ∃ t, step s = .next t
    · obtain ⟨t, ht⟩ := h
      rw [Nat.succ_add, runSteps_succ_next ht, runSteps_succ_next ht, ih]
    · have hstuck : ∀ t, step s ≠ .next t := fun t ht => h ⟨t, ht⟩
      rw [runSteps_of_stuck hstuck, runSteps_of_stuck hstuck, runSteps_of_stuck hstuck]

theorem hostAct_run (h : cycleEnabled s) (k : Nat) : hostAct (.run k) s = .next (runSteps k s) := by
  rw [hostAct, if_pos h]

theorem hostAct_run_refused (h : ¬ cycleEnabled s) (k : Nat) :
    hostAct (.run k) s = .refused .runNotEnabled := by
  rw [hostAct, if_neg h]

/-- Settles O59: a run is its steps, and the steps of a run that goes on are added to those before
the pause. -/
theorem pacingChangesNoResult : Obligations.PacingChangesNoResult := by
  refine ⟨fun _ => rfl, fun _ _ => rfl, fun _ => rfl, fun k s he => ?_,
    fun k s he => hostAct_run_refused he k, fun j k s t h => ?_⟩
  · obtain ⟨j, hj, hrun, hstuck⟩ := runSteps_eq_run k s
    exact ⟨j, _, hj, hostAct_run he k, hrun, hstuck⟩
  · by_cases he : cycleEnabled s
    · rw [hostAct_run he] at h
      cases h
      rw [hostAct_run he, runSteps_add]
      exact ⟨rfl, fun he' => (hostAct_run he' k).symm⟩
    · rw [hostAct_run_refused he] at h
      cases h

/-! ### The branch to itself, R276 and R183 -/

/-- The next cycle runs a BR to its own address, inside the program. -/
def BranchesToItself (s : State) : Prop :=
  cycleEnabled s ∧ s.pc < 100 ∧ s.pc < s.progEnd ∧
    decode (s.mem.read s.pc) = .known (.br s.pc)

/-- The cycle of such a BR leads to the same BR. -/
theorem BranchesToItself.step (h : BranchesToItself s) :
    ∃ t, step s = .next t ∧ BranchesToItself t ∧ t.cyc = s.cyc + 1 ∧ t.pc = s.pc := by
  obtain ⟨he, hp, hpe, hd⟩ := h
  refine ⟨_, step_br he hp hd, ?_⟩
  rw [fetchDecode_startCycle_eq_fetched he]
  rcases endCycle_cases (writePc s.pc s.fetched) with ⟨-, hoff, -⟩ | ⟨-, hend⟩
  · exact absurd hpe (Nat.not_lt.mpr hoff)
  · rw [hend]
    exact ⟨⟨⟨.inr rfl, he.2⟩, hp, hpe, hd⟩, rfl, rfl⟩

/-- A machine in which a cycle is enabled has not ended, R276. -/
theorem not_ended_of_cycleEnabled (h : cycleEnabled s) : ¬ s.ended := by
  obtain ⟨hr | hr, -⟩ := h <;> simp [State.ended, hr]

/-- Settles O54: every cycle of the loop leads back to it, and none ends the run. -/
theorem branchToItselfHangs : Obligations.BranchToItselfHangs := by
  intro s he hp hpe hd k
  have h : BranchesToItself s := ⟨he, hp, hpe, hd⟩
  clear he hp hpe hd
  induction k generalizing s with
  | zero => exact ⟨s, run_zero s, not_ended_of_cycleEnabled h.1, rfl, rfl⟩
  | succ k ih =>
    obtain ⟨t, ht, hloop, hcyc, hpc⟩ := h.step
    obtain ⟨u, hrun, hend, hcyc', hpc'⟩ := ih t hloop
    refine ⟨u, by rw [run_succ ht, hrun], hend, ?_, hpc'.trans hpc⟩
    omega

/-! ### The branch-free run, R280 -/

/-- Within `k` steps the machine ends or waits for an answer, with CYC at most `c` and PC at
most `p`. -/
def StopsWithin (k c p : Nat) (s : State) : Prop :=
  ∃ (j : Nat) (t : State), j ≤ k ∧ Host.Core.run core j s = .next t ∧
    (t.ended ∨ t.waits) ∧ t.cyc ≤ c ∧ t.pc ≤ p

theorem StopsWithin.now {c p : Nat} (h : s.ended ∨ s.waits) (hcyc : s.cyc ≤ c) (hpc : s.pc ≤ p)
    (k : Nat) : StopsWithin k c p s :=
  ⟨0, s, Nat.zero_le k, run_zero s, h, hcyc, hpc⟩

theorem StopsWithin.after_step {c p : Nat} (ht : Machine.step s = .next t)
    (h : StopsWithin k c p t) : StopsWithin (k + 1) c p s := by
  obtain ⟨j, u, hj, hrun, hu⟩ := h
  exact ⟨j + 1, u, Nat.succ_le_succ hj, by rw [run_succ ht, hrun], hu⟩

theorem StopsWithin.mono {c d p l : Nat} (h : StopsWithin k c p s) (hk : k ≤ l) (hc : c ≤ d) :
    StopsWithin l d p s := by
  obtain ⟨j, u, hj, hrun, hu, hcyc, hpc⟩ := h
  exact ⟨j, u, hj.trans hk, hrun, hu, hcyc.trans hc, hpc⟩

/-- The machine may go on with a cycle, inside the program. -/
def RunsOn (s : State) : Prop := s.rs = .running ∧ s.inReq = false ∧ s.pc < s.progEnd

theorem nextPc_of_not_branch (h : isBranch i = false) (s : State) : nextPc i s = s.pc := by
  cases i with
  | br a | brz a | brp a => cases h
  | halt a | add a | sub a | store a | nop a | load a | inp | out => rfl

/-- A cycle inside the memory that runs no branch moves PC one on, and ends the run, waits for an
answer, or goes on inside the program. -/
theorem step_of_fetch_no_branch (he : cycleEnabled s) (hp : s.pc < 100)
    (hb : fetchesBranch s = false) (h : step s = .next t) :
    t.pc = s.pc + 1 ∧ t.progEnd = s.progEnd ∧
      ((t.ended ∨ RunsOn t) ∧ t.cyc = s.cyc + 1 ∨
        t.rs = .running ∧ t.inReq = true ∧ t.cyc = s.cyc) := by
  rcases step_outcomes h with ⟨hi, -⟩ | ⟨-, hout, -⟩ | ⟨-, -, a, -, rfl⟩ |
    ⟨-, -, i, u, hd, hu, rfl⟩
  · exact absurd he (not_cycleEnabled_of_inReq hi)
  · exact absurd hp (Nat.not_lt.mpr hout)
  · rw [unknownOpcode_eq]
    exact ⟨rfl, rfl, .inl ⟨.inl (.inr rfl), rfl⟩⟩
  · have hi : isBranch i = false := by simpa only [fetchesBranch, hd] using hb
    obtain ⟨-, hpe, -⟩ := exec_untouched hu
    refine ⟨by rw [afterExecute_pc, exec_pc hu, nextPc_of_not_branch hi, fetched_pc],
      by rw [afterExecute_progEnd, hpe, fetched_progEnd], ?_⟩
    cases cycleEnd_of_exec he hu with
    | overflow hrs _ hcyc => exact .inl ⟨.inl (.inr hrs), hcyc⟩
    | halt hrs _ hcyc | offEnd hrs _ hcyc => exact .inl ⟨.inl (.inl hrs), hcyc⟩
    | waiting hrs _ hcyc hin => exact .inr ⟨hrs, hin, hcyc⟩
    | running hrs _ hcyc hin hpe => exact .inl ⟨.inr ⟨hrs, hin, hpe⟩, hcyc⟩

/-- The step that completes a waiting IN leaves PC, counts the cycle, and ends the run or goes on
inside the program. -/
theorem step_of_answered_wait {x : InputAnswer} {rest : List InputAnswer} (hr : s.rs = .running)
    (hi : s.inReq = true) (ha : s.answers = x :: rest) :
    ∃ t, step s = .next t ∧ t.pc = s.pc ∧ t.progEnd = s.progEnd ∧ (t.ended ∨ RunsOn t) ∧
      t.cyc = s.cyc + 1 := by
  have hstep := step_answered hi x rest
  rw [← ha, ← completeInput_answers] at hstep
  refine ⟨_, hstep, completeInput_pc .., completeInput_progEnd .., ?_⟩
  rcases completeInput_outcomes x { s with answers := rest } with
    ⟨-, h⟩ | ⟨v, -, -, h⟩ | ⟨v, -, -, -, -, h⟩ | ⟨v, -, -, hpe, h⟩ <;> rw [h]
  · exact ⟨.inl (.inr rfl), rfl⟩
  · exact ⟨.inl (.inr rfl), rfl⟩
  · exact ⟨.inl (.inl rfl), rfl⟩
  · exact ⟨.inr ⟨hr, rfl, Nat.not_le.mp fun hp => hpe ⟨hr, hp⟩⟩, rfl⟩

/-- From a PC with `n` addresses left, a branch-free run stops within two steps for each: every
cycle takes one address, so after it the same holds of the fewer that are left. -/
theorem stopsWithin_of_branchFree {n m : Nat} (he : cycleEnabled s) (hn : s.pc + n = 100)
    (hp : s.pc < 100) (hpe : s.progEnd ≤ 100) (hm : 2 * n ≤ m) (hb : branchFree m s) :
    StopsWithin (2 * n) (s.cyc + n) 100 s := by
  induction n generalizing s m with
  | zero => exact absurd hp (by omega)
  | succ n ih =>
    obtain ⟨m, rfl⟩ : ∃ l, m = l + 2 := ⟨m - 2, by omega⟩
    obtain ⟨hno, hbt⟩ := hb
    obtain ⟨t, ht⟩ := step_next_iff.mpr (.inl he)
    obtain ⟨hpc, hpet, hend⟩ := step_of_fetch_no_branch he hp (hno he) ht
    have afterCycle : ∀ {v : State} {l : Nat}, v.ended ∨ RunsOn v → v.pc = s.pc + 1 →
        v.progEnd = s.progEnd → v.cyc = s.cyc + 1 → 2 * n ≤ l → branchFree l v →
        StopsWithin (2 * n) (s.cyc + (n + 1)) 100 v := by
      rintro v l (hstop | ⟨hr, hin, hlt⟩) hpcv hpev hcyc hl hbv
      · exact .now (.inl hstop) (by omega) (by omega) _
      · exact (ih ⟨.inr hr, hin⟩ (by omega) (by omega) (by omega) hl hbv).mono le_rfl (by omega)
    rcases hend with ⟨hon, hcyc⟩ | ⟨hr, hin, hcyc⟩
    · exact (StopsWithin.after_step ht
        (afterCycle hon hpc hpet hcyc (by omega) (hbt t ht))).mono (by omega) le_rfl
    · cases hans : t.answers with
      | nil => exact .after_step ht (.now (.inr ⟨hin, hans⟩) (by omega) (by omega) _)
      | cons x rest =>
        obtain ⟨v, hv, hpcv, hpev, hon, hcycv⟩ := step_of_answered_wait hr hin hans
        obtain ⟨-, hbv⟩ := hbt t ht
        exact .after_step ht (.after_step hv (afterCycle hon (hpcv.trans hpc) (hpev.trans hpet)
          (by omega) (by omega) (hbv v hv)))

/-- Settles O53: by induction on the addresses left. -/
theorem branchFreeRunStops : Obligations.BranchFreeRunStops := by
  intro s _ he hp hpe hb
  exact stopsWithin_of_branchFree he (by omega) hp hpe (by omega) hb

end Sys2Proof.Machine
end
